-- ==== Sys2Proof/Word.lean ====
section
/-! DEFINITION. The word types of CHIP8-CORE and the index types of its register fields. -/

namespace Sys2Proof

/-- An 8-bit value: a V register, a timer, a byte of memory, `kk` (spec/10_state.md R11, R18, R20). -/
abbrev Byte := BitVec 8

/-- A 16-bit value: `I`, `PC`, a stack slot, an instruction word (10_state.md R13, R14, R17). -/
abbrev Word := BitVec 16

/-- The 12-bit address immediate `nnn` (30_encoding.md R61). -/
abbrev Addr := BitVec 12

/-- The number of a V register, 0 to 15: the fields `x` and `y` and the wait target `WT`
(30_encoding.md R61, 10_state.md R23). -/
abbrev RegIdx := Fin 16

/-- The number of a key, 0 to 15: the 4-bit operand of `press_key` and `release_key`
(44_timers_keypad.md R167, R168). -/
abbrev KeyIdx := Fin 16

end Sys2Proof
end

