-- ==== Sys2Proof/Syntax.lean ====
section
/-! DEFINITION. The instructions: one constructor for each of the 35 rows of spec/opcode_table.json. -/

namespace Sys2Proof

/-- The 35 instructions of 30_encoding.md R65, in the table's order. `x` and `y` name V registers,
`kk` is the immediate byte, `nnn` the address immediate and `n` the number of sprite rows. -/
inductive Instr where
  /-- `0nnn` other than `00E0` and `00EE` (40_control_flow.md R81). -/
  | sys (nnn : Addr)
  /-- `00E0` (43_display.md R143). -/
  | cls
  /-- `00EE` (40_control_flow.md R82). -/
  | ret
  /-- `1nnn` (40_control_flow.md R83). -/
  | jp (nnn : Addr)
  /-- `2nnn` (40_control_flow.md R84). -/
  | call (nnn : Addr)
  /-- `3xkk` (40_control_flow.md R85). -/
  | seVxKk (x : RegIdx) (kk : Byte)
  /-- `4xkk` (40_control_flow.md R86). -/
  | sneVxKk (x : RegIdx) (kk : Byte)
  /-- `5xy0` (40_control_flow.md R87). -/
  | seVxVy (x y : RegIdx)
  /-- `6xkk` (41_load_alu.md R101). -/
  | ldVxKk (x : RegIdx) (kk : Byte)
  /-- `7xkk` (41_load_alu.md R102). -/
  | addVxKk (x : RegIdx) (kk : Byte)
  /-- `8xy0` (41_load_alu.md R103). -/
  | ldVxVy (x y : RegIdx)
  /-- `8xy1` (41_load_alu.md R104). -/
  | orVxVy (x y : RegIdx)
  /-- `8xy2` (41_load_alu.md R105). -/
  | andVxVy (x y : RegIdx)
  /-- `8xy3` (41_load_alu.md R106). -/
  | xorVxVy (x y : RegIdx)
  /-- `8xy4` (41_load_alu.md R107). -/
  | addVxVy (x y : RegIdx)
  /-- `8xy5` (41_load_alu.md R108). -/
  | subVxVy (x y : RegIdx)
  /-- `8xy6`; `y` is encoded and ignored (41_load_alu.md R109, 30_encoding.md R67). -/
  | shrVx (x y : RegIdx)
  /-- `8xy7` (41_load_alu.md R110). -/
  | subnVxVy (x y : RegIdx)
  /-- `8xyE`; `y` is encoded and ignored (41_load_alu.md R111, 30_encoding.md R67). -/
  | shlVx (x y : RegIdx)
  /-- `9xy0` (40_control_flow.md R88). -/
  | sneVxVy (x y : RegIdx)
  /-- `Annn` (42_index_memory.md R121). -/
  | ldI (nnn : Addr)
  /-- `Bnnn` (40_control_flow.md R89). -/
  | jpV0 (nnn : Addr)
  /-- `Cxkk` (41_load_alu.md R112). -/
  | rndVxKk (x : RegIdx) (kk : Byte)
  /-- `Dxyn` (43_display.md R144). -/
  | drw (x y : RegIdx) (n : Fin 16)
  /-- `Ex9E` (44_timers_keypad.md R163). -/
  | skpVx (x : RegIdx)
  /-- `ExA1` (44_timers_keypad.md R164). -/
  | sknpVx (x : RegIdx)
  /-- `Fx07` (44_timers_keypad.md R160). -/
  | ldVxDt (x : RegIdx)
  /-- `Fx0A` (44_timers_keypad.md R165). -/
  | ldVxK (x : RegIdx)
  /-- `Fx15` (44_timers_keypad.md R161). -/
  | ldDtVx (x : RegIdx)
  /-- `Fx18` (44_timers_keypad.md R162). -/
  | ldStVx (x : RegIdx)
  /-- `Fx1E` (42_index_memory.md R122). -/
  | addIVx (x : RegIdx)
  /-- `Fx29` (42_index_memory.md R123). -/
  | ldFVx (x : RegIdx)
  /-- `Fx33` (42_index_memory.md R124). -/
  | ldBVx (x : RegIdx)
  /-- `Fx55`, `LD [I], Vx` (42_index_memory.md R125). -/
  | ldMemVx (x : RegIdx)
  /-- `Fx65`, `LD Vx, [I]` (42_index_memory.md R126). -/
  | ldVxMem (x : RegIdx)
deriving DecidableEq, Repr

end Sys2Proof
end

