-- ==== Sys2Proof/WellFormed.lean ====
section
/-! DEFINITION. The one check an instruction term needs beside its types. -/

namespace Sys2Proof

/-- Register numbers, immediates and the row count are bounded by their types. What remains: "the two
exact words `00E0` and `00EE` take priority over the `0nnn` pattern" (30_encoding.md R64), so a `SYS`
whose `nnn` is one of them is no instruction. -/
def Instr.wellFormed : Instr → Bool
  | .sys nnn => nnn != 0x0E0#12 && nnn != 0x0EE#12
  | .cls | .ret | .jp _ | .call _ | .seVxKk _ _ | .sneVxKk _ _ | .seVxVy _ _ | .ldVxKk _ _
  | .addVxKk _ _ | .ldVxVy _ _ | .orVxVy _ _ | .andVxVy _ _ | .xorVxVy _ _ | .addVxVy _ _
  | .subVxVy _ _ | .shrVx _ _ | .subnVxVy _ _ | .shlVx _ _ | .sneVxVy _ _ | .ldI _ | .jpV0 _
  | .rndVxKk _ _ | .drw _ _ _ | .skpVx _ | .sknpVx _ | .ldVxDt _ | .ldVxK _ | .ldDtVx _
  | .ldStVx _ | .addIVx _ | .ldFVx _ | .ldBVx _ | .ldMemVx _ | .ldVxMem _ => true

end Sys2Proof
end

