-- ==== Sys2Proof/Decode.lean ====
section
/-! DEFINITION. The decoder of 30_encoding.md R64, total on every word, and the encoder after it,
written from the encoding table of R65. -/

namespace Sys2Proof

/-! ## Fields of the word (30_encoding.md R61) -/

/-- `class`: bits 15:12. -/
def fieldClass (w : Word) : BitVec 4 := w.extractLsb' 12 4
/-- `x`: bits 11:8. -/
def fieldX (w : Word) : RegIdx := (w.extractLsb' 8 4).toFin
/-- `y`: bits 7:4. -/
def fieldY (w : Word) : RegIdx := (w.extractLsb' 4 4).toFin
/-- `n`: bits 3:0. -/
def fieldN (w : Word) : BitVec 4 := w.extractLsb' 0 4
/-- `kk`: bits 7:0. -/
def fieldKk (w : Word) : Byte := w.extractLsb' 0 8
/-- `nnn`: bits 11:0. -/
def fieldNnn (w : Word) : Addr := w.extractLsb' 0 12

/-! ## The decoder -/

/-- Why the decoder rejects. The first five are the invalid words of 30_encoding.md R66. -/
inductive DecodeError where
  /-- Class 5 with `n` other than 0. -/
  | class5Modifier
  /-- Class 8 with `n` in 8, 9, A, B, C, D, F. -/
  | class8Modifier
  /-- Class 9 with `n` other than 0. -/
  | class9Modifier
  /-- Class E with `kk` neither 9E nor A1. -/
  | classEModifier
  /-- Class F with an unlisted `kk`. -/
  | classFModifier
  /-- Fewer than the two bytes every instruction has (30_encoding.md R60). -/
  | truncated
deriving DecidableEq, Repr

/-- What the decoder answers: an instruction, or a rejection by name. -/
inductive Decoded where
  | instr (i : Instr)
  | invalid (why : DecodeError)
deriving DecidableEq, Repr

/-- Class 8, by `n`. -/
def decode8 (x y : RegIdx) (n : BitVec 4) : Decoded :=
  match n with
  | 0x0#4 => .instr (.ldVxVy x y)
  | 0x1#4 => .instr (.orVxVy x y)
  | 0x2#4 => .instr (.andVxVy x y)
  | 0x3#4 => .instr (.xorVxVy x y)
  | 0x4#4 => .instr (.addVxVy x y)
  | 0x5#4 => .instr (.subVxVy x y)
  | 0x6#4 => .instr (.shrVx x y)
  | 0x7#4 => .instr (.subnVxVy x y)
  | 0xE#4 => .instr (.shlVx x y)
  | _ => .invalid .class8Modifier

/-- Class E, by `kk`. -/
def decodeE (x : RegIdx) (kk : Byte) : Decoded :=
  match kk with
  | 0x9E#8 => .instr (.skpVx x)
  | 0xA1#8 => .instr (.sknpVx x)
  | _ => .invalid .classEModifier

/-- Class F, by `kk`. -/
def decodeF (x : RegIdx) (kk : Byte) : Decoded :=
  match kk with
  | 0x07#8 => .instr (.ldVxDt x)
  | 0x0A#8 => .instr (.ldVxK x)
  | 0x15#8 => .instr (.ldDtVx x)
  | 0x18#8 => .instr (.ldStVx x)
  | 0x1E#8 => .instr (.addIVx x)
  | 0x29#8 => .instr (.ldFVx x)
  | 0x33#8 => .instr (.ldBVx x)
  | 0x55#8 => .instr (.ldMemVx x)
  | 0x65#8 => .instr (.ldVxMem x)
  | _ => .invalid .classFModifier

/-- The decode procedure of 30_encoding.md R64: total, strict, no ignored opcode bits. The last arm is
class F. -/
def decode (w : Word) : Decoded :=
  match fieldClass w with
  | 0x0#4 => if w = 0x00E0#16 then .instr .cls
             else if w = 0x00EE#16 then .instr .ret
             else .instr (.sys (fieldNnn w))
  | 0x1#4 => .instr (.jp (fieldNnn w))
  | 0x2#4 => .instr (.call (fieldNnn w))
  | 0x3#4 => .instr (.seVxKk (fieldX w) (fieldKk w))
  | 0x4#4 => .instr (.sneVxKk (fieldX w) (fieldKk w))
  | 0x5#4 => if fieldN w = 0 then .instr (.seVxVy (fieldX w) (fieldY w)) else .invalid .class5Modifier
  | 0x6#4 => .instr (.ldVxKk (fieldX w) (fieldKk w))
  | 0x7#4 => .instr (.addVxKk (fieldX w) (fieldKk w))
  | 0x8#4 => decode8 (fieldX w) (fieldY w) (fieldN w)
  | 0x9#4 => if fieldN w = 0 then .instr (.sneVxVy (fieldX w) (fieldY w)) else .invalid .class9Modifier
  | 0xA#4 => .instr (.ldI (fieldNnn w))
  | 0xB#4 => .instr (.jpV0 (fieldNnn w))
  | 0xC#4 => .instr (.rndVxKk (fieldX w) (fieldKk w))
  | 0xD#4 => .instr (.drw (fieldX w) (fieldY w) (fieldN w).toFin)
  | 0xE#4 => decodeE (fieldX w) (fieldKk w)
  | _ => decodeF (fieldX w) (fieldKk w)

/-- The word two bytes make: "the byte at the lower address is the high byte of the word"
(20_memory.md R44, R45). -/
def wordOfBytes (hi lo : Byte) : Word := hi ++ lo

/-- The two bytes of a word, the one for the lower address first (20_memory.md R45). -/
def bytesOfWord (w : Word) : List Byte := [w.extractLsb' 8 8, w.extractLsb' 0 8]

/-- Decode the instruction at the head of a byte sequence; it is always two bytes long
(30_encoding.md R60). -/
def decodeBytes : List Byte → Decoded
  | hi :: lo :: _ => decode (wordOfBytes hi lo)
  | _ => .invalid .truncated

/-! ## The encoder (30_encoding.md R62, R65) -/

/-- A register number or row count as its 4-bit field. -/
def nibble (x : Fin 16) : BitVec 4 := BitVec.ofFin x

/-- Format A: `cnnn`. -/
def encodeA (cls : BitVec 4) (nnn : Addr) : Word := cls ++ nnn
/-- Format XK: `cxkk`. -/
def encodeXK (cls : BitVec 4) (x : RegIdx) (kk : Byte) : Word := cls ++ nibble x ++ kk
/-- Formats XY and XYN: `cxym`, `cxyn`. -/
def encodeXY (cls : BitVec 4) (x y : RegIdx) (m : BitVec 4) : Word :=
  cls ++ nibble x ++ nibble y ++ m

/-- The word of an instruction, from the patterns of 30_encoding.md R65. -/
def encode : Instr → Word
  | .sys nnn => encodeA 0x0 nnn
  | .cls => 0x00E0
  | .ret => 0x00EE
  | .jp nnn => encodeA 0x1 nnn
  | .call nnn => encodeA 0x2 nnn
  | .seVxKk x kk => encodeXK 0x3 x kk
  | .sneVxKk x kk => encodeXK 0x4 x kk
  | .seVxVy x y => encodeXY 0x5 x y 0x0
  | .ldVxKk x kk => encodeXK 0x6 x kk
  | .addVxKk x kk => encodeXK 0x7 x kk
  | .ldVxVy x y => encodeXY 0x8 x y 0x0
  | .orVxVy x y => encodeXY 0x8 x y 0x1
  | .andVxVy x y => encodeXY 0x8 x y 0x2
  | .xorVxVy x y => encodeXY 0x8 x y 0x3
  | .addVxVy x y => encodeXY 0x8 x y 0x4
  | .subVxVy x y => encodeXY 0x8 x y 0x5
  | .shrVx x y => encodeXY 0x8 x y 0x6
  | .subnVxVy x y => encodeXY 0x8 x y 0x7
  | .shlVx x y => encodeXY 0x8 x y 0xE
  | .sneVxVy x y => encodeXY 0x9 x y 0x0
  | .ldI nnn => encodeA 0xA nnn
  | .jpV0 nnn => encodeA 0xB nnn
  | .rndVxKk x kk => encodeXK 0xC x kk
  | .drw x y n => encodeXY 0xD x y (nibble n)
  | .skpVx x => encodeXK 0xE x 0x9E
  | .sknpVx x => encodeXK 0xE x 0xA1
  | .ldVxDt x => encodeXK 0xF x 0x07
  | .ldVxK x => encodeXK 0xF x 0x0A
  | .ldDtVx x => encodeXK 0xF x 0x15
  | .ldStVx x => encodeXK 0xF x 0x18
  | .addIVx x => encodeXK 0xF x 0x1E
  | .ldFVx x => encodeXK 0xF x 0x29
  | .ldBVx x => encodeXK 0xF x 0x33
  | .ldMemVx x => encodeXK 0xF x 0x55
  | .ldVxMem x => encodeXK 0xF x 0x65

/-! ## A row of the opcode table -/

/-- The word the table's bits stand for: bits at and above `nbits` are zero. -/
def tableWord (nbits w : Nat) : Word := BitVec.ofNat 16 (w % 2 ^ nbits)

/-- The instruction the decoder reads from a row's bits, stored big-endian as the hardware fetches
them (20_memory.md R44). -/
def decodeTableWord (nbits w : Nat) : Option Instr :=
  match decodeBytes (bytesOfWord (tableWord nbits w)) with
  | .instr i => some i
  | .invalid _ => none

end Sys2Proof
end

