-- ==== Sys2Proof/Config.lean ====
section
/-! DEFINITION. The named parameters of the hardware (spec/00_scope.md R6) and its one free value. -/

namespace Sys2Proof

/-- `SYS_POLICY` (00_scope.md R6, 92_eei_decisions.md D1): what `SYS nnn` does. -/
inductive SysPolicy where
  /-- `SYS` raises `INVALID_OPCODE`; the spec's default. -/
  | invalid
  /-- `SYS` only advances the program counter. -/
  | nop
deriving DecidableEq, Repr

/-- The parameters a model takes (00_scope.md R6). They are fixed for a machine: the state carries
them and no step changes them (log entry 2). -/
structure Config where
  /-- `SYS_POLICY`. -/
  sysPolicy : SysPolicy
  /-- `FONT_BASE`, with the constraint `0 <= FONT_BASE <= 0x1B0` in its type. -/
  fontBase : Fin 0x1B1
  /-- `FONT_GLYPHS`: 16 glyphs of 5 bytes, top row first (20_memory.md R50). -/
  fontGlyphs : Vector (Vector Byte 5) 16
  /-- `EMIT_PIXEL_EVENTS`. -/
  emitPixelEvents : Bool
  /-- `EMIT_REDRAW_EVENTS`. -/
  emitRedrawEvents : Bool
deriving DecidableEq, Repr

/-- FREE VALUE (log entry 3): the `k`-th random byte the source supplies when the `cycle` command
names none. The core puts no law on it (41_load_alu.md R112), so it has no body. -/
opaque Config.randByte : Nat → Byte

end Sys2Proof
end

