-- ==== Sys2Proof/Machine/Params.lean ====
section
/-! DEFINITION. The default values of the parameters (spec/00_scope.md R6, 20_memory.md R50). -/

namespace Sys2Proof.Machine

/-- Glyphs 0 to 7 of the default font (20_memory.md R50). -/
def glyphsLow : Vector (Vector Byte 5) 8 := #v[
  #v[0xF0, 0x90, 0x90, 0x90, 0xF0],
  #v[0x20, 0x60, 0x20, 0x20, 0x70],
  #v[0xF0, 0x10, 0xF0, 0x80, 0xF0],
  #v[0xF0, 0x10, 0xF0, 0x10, 0xF0],
  #v[0x90, 0x90, 0xF0, 0x10, 0x10],
  #v[0xF0, 0x80, 0xF0, 0x10, 0xF0],
  #v[0xF0, 0x80, 0xF0, 0x90, 0xF0],
  #v[0xF0, 0x10, 0x20, 0x40, 0x40]]

/-- Glyphs 8 to F of the default font (20_memory.md R50). -/
def glyphsHigh : Vector (Vector Byte 5) 8 := #v[
  #v[0xF0, 0x90, 0xF0, 0x90, 0xF0],
  #v[0xF0, 0x90, 0xF0, 0x10, 0xF0],
  #v[0xF0, 0x90, 0xF0, 0x90, 0x90],
  #v[0xE0, 0x90, 0xE0, 0x90, 0xE0],
  #v[0xF0, 0x80, 0x80, 0x80, 0xF0],
  #v[0xE0, 0x90, 0x90, 0x90, 0xE0],
  #v[0xF0, 0x80, 0xF0, 0x80, 0xF0],
  #v[0xF0, 0x80, 0xF0, 0x80, 0x80]]

/-- The customary hexadecimal font, the default of `FONT_GLYPHS` (20_memory.md R50). -/
def defaultGlyphs : Vector (Vector Byte 5) 16 := glyphsLow ++ glyphsHigh

/-- Every parameter at its default (00_scope.md R6). -/
def defaultConfig : Config where
  sysPolicy := .invalid
  fontBase := 0x000
  fontGlyphs := defaultGlyphs
  emitPixelEvents := true
  emitRedrawEvents := true

end Sys2Proof.Machine
end

