-- ==== Sys2Proof/Machine/Memory.lean ====
section
/-! DEFINITION. Memory as plain data: the list, in one canonical form, of the bytes that differ from
what `init` leaves (spec/10_state.md R18, R25; 20_memory.md R40, R41, R50). -/

namespace Sys2Proof.Machine

/-- The number of bytes of memory, `MEM_SIZE` (00_scope.md R6). -/
def memSize : Nat := 4096

/-- The lowest address an instruction may store to, `ROM_BASE` (20_memory.md R41, R43). -/
def romBase : Nat := 0x200

/-- Memory: (address, byte) pairs, addresses strictly rising, no entry equal to `initByte` (log
entry 6). -/
abbrev Memory := List Host.Cell

/-- What an unlisted address reads as: the contents after `init` (10_state.md R25), which are the font
table at `FONT_BASE` to `FONT_BASE + 79` (20_memory.md R50) and zero elsewhere. -/
def initByte (cfg : Config) (a : Nat) : Byte :=
  if h : cfg.fontBase.val ≤ a ∧ a < cfg.fontBase.val + 80 then
    (cfg.fontGlyphs[(a - cfg.fontBase.val) / 5]'(by omega))[(a - cfg.fontBase.val) % 5]'(by omega)
  else 0

/-- `Mem[a]`, raw access without checks (00_scope.md R8). -/
def Memory.read (cfg : Config) : Memory → Nat → Byte
  | [], a => initByte cfg a
  | (b, v) :: m, a => if a = b then v else Memory.read cfg m a

/-- `Mem[a] <- v`, raw access without checks (00_scope.md R8), keeping the canonical form: a byte equal
to `initByte` is not listed. -/
def Memory.write (cfg : Config) : Memory → Nat → Byte → Memory
  | [], a, v => if v = initByte cfg a then [] else [(a, v)]
  | (b, u) :: m, a, v =>
    if a < b then if v = initByte cfg a then (b, u) :: m else (a, v) :: (b, u) :: m
    else if a = b then if v = initByte cfg a then m else (a, v) :: m
    else (b, u) :: Memory.write cfg m a v

/-- `Mem[a + j] <- bytes[j]` for every `j`, ascending. -/
def Memory.writeBytes (cfg : Config) : Memory → Nat → List Byte → Memory
  | m, _, [] => m
  | m, a, v :: vs => Memory.writeBytes cfg (Memory.write cfg m a v) (a + 1) vs

/-- The `n` bytes from `a` up. -/
def Memory.readBytes (cfg : Config) (m : Memory) : Nat → Nat → List Byte
  | _, 0 => []
  | a, n + 1 => Memory.read cfg m a :: Memory.readBytes cfg m (a + 1) n

/-- The canonical form from address `lo` up. -/
def Memory.wfFrom (cfg : Config) : Nat → Memory → Bool
  | _, [] => true
  | lo, (b, v) :: m => decide (lo ≤ b) && decide (b < memSize) && v != initByte cfg b
      && Memory.wfFrom cfg (b + 1) m

/-- The canonical form: addresses strictly rising and inside the 4096 bytes, no entry equal to what an
unlisted address reads as. -/
def Memory.wf (cfg : Config) (m : Memory) : Bool := Memory.wfFrom cfg 0 m

end Sys2Proof.Machine
end

