-- ==== Sys2Proof/Machine/State.lean ====
section
/-! DEFINITION. The state of CHIP8-CORE: the eleven elements of spec/10_state.md R10 and the model's
own fields for parameters, inputs and outputs of the command interface (spec/00_scope.md R6, R9). -/

namespace Sys2Proof.Machine

/-- The kinds of fault, each the terminal run state it enters and the failure `cycle` reports
(60_exceptions.md R182). -/
inductive FaultKind where
  /-- Code 2: a word that matches no valid form, or `SYS` under the policy `invalid` (R196). -/
  | invalidOpcode
  /-- Code 3: reserved, raised by nothing (R197). -/
  | unsupportedOpcode
  /-- Code 4: `CALL` with `SP = 16` (R198). -/
  | stackOverflow
  /-- Code 5: `RET` with `SP = 0` (R199). -/
  | stackUnderflow
  /-- Code 6: a fetch or data access above 0xFFF (R200). -/
  | addressFault
  /-- Code 7: an instruction store below 0x200 (R201). -/
  | writeProtectFault
deriving DecidableEq, Repr

/-- The run state `RS` (10_state.md R22): two live states and the terminal ones. -/
inductive RunState where
  | running
  | waitingForInput
  | terminal (kind : FaultKind)
deriving DecidableEq, Repr

/-- The framebuffer: 32 rows of 64 cells, `true` is ON (10_state.md R19). -/
abbrev Screen := Vector (Vector Bool 64) 32

/-- The output events of `cycle` (43_display.md R142). -/
inductive Event where
  /-- `PixelSet(x, y, s)`, `s` the state of the cell after the write. -/
  | pixelSet (x : Fin 64) (y : Fin 32) (on : Bool)
  /-- `Redraw`. -/
  | redraw
deriving DecidableEq, Repr

/-- The responses of the commands (00_scope.md R9). -/
inductive Response where
  /-- `Ok`. -/
  | ok
  /-- `Fail(kind)`. -/
  | fail (kind : FaultKind)
  /-- `RomTooLarge` (70_reset_and_hazards.md R213). -/
  | romTooLarge
  /-- What `get_run_state` returns. -/
  | runState (rs : RunState)
  /-- What `get_screen` returns. -/
  | screen (pix : Screen)
deriving DecidableEq, Repr

/-- The eight commands of the environment with their operands (00_scope.md R9). -/
inductive Command where
  | init
  | loadRom (bytes : List Byte)
  | cycle (rand : Byte)
  | tickTimers
  | pressKey (k : KeyIdx)
  | releaseKey (k : KeyIdx)
  | getRunState
  | getScreen
deriving DecidableEq, Repr

/-- The whole state of the machine. -/
structure State where
  /-- V0 to VF (10_state.md R11). -/
  v : Vector Byte 16
  /-- The address register (R13). -/
  i : Word
  /-- The program counter (R14). -/
  pc : Word
  /-- The call stack's slots (R17). -/
  stack : Vector Word 16
  /-- The number of slots in use, 0 to 16 (R17, R27). -/
  sp : Fin 17
  /-- Memory (R18). -/
  mem : Memory
  /-- The display buffer (R19). -/
  pix : Screen
  /-- The delay timer (R20). -/
  dt : Byte
  /-- The sound timer (R20). -/
  st : Byte
  /-- The keys, `true` is pressed (R21). -/
  key : Vector Bool 16
  /-- The run state (R22). -/
  rs : RunState
  /-- The wait target (R23). -/
  wt : RegIdx
  /-- MODEL's own: the parameters, changed by no step (00_scope.md R6, log entry 2). -/
  cfg : Config
  /-- MODEL's own: the commands the environment issues next (log entry 1). -/
  commands : List Command
  /-- MODEL's own: the operand of the `cycle` being served, if it names one (log entry 3). -/
  rand : Option Byte
  /-- MODEL's own: the index of the next free random byte (log entry 3). -/
  draws : Nat
  /-- MODEL's own: the response of the last command served (log entry 4). -/
  response : Option Response
  /-- MODEL's own: the events of the last command served, oldest first (log entry 4). -/
  events : List Event
deriving DecidableEq, Repr

/-- No step of this machine stops the model: the spec describes the entry of every fault it names
(60_exceptions.md R183), so each is a next state whose run state is terminal (log entry 10). The type
is closed and empty; nothing raises it, which is safe. -/
inductive Fault where
deriving DecidableEq, Repr

/-- Why the model has no meaning to give. -/
inductive Refusal where
  /-- Raised only by an arm of `exec` whose instruction has no meaning yet; no arm does. Safe: a
  refusal proves nothing about the hardware. -/
  | notModelled (mnemonic : String)
deriving DecidableEq, Repr

/-- The state after `init` under the parameters `cfg` (10_state.md R25, 70_reset_and_hazards.md R210).
The model's own fields are empty (log entry 5). -/
def State.initial (cfg : Config) : State where
  v := Vector.replicate 16 0
  i := 0x0000
  pc := 0x0200
  stack := Vector.replicate 16 0
  sp := 0
  mem := []
  pix := Vector.replicate 32 (Vector.replicate 64 false)
  dt := 0
  st := 0
  key := Vector.replicate 16 false
  rs := .running
  wt := 0
  cfg := cfg
  commands := []
  rand := none
  draws := 0
  response := none
  events := []

/-- The machine right after `init`, the only reset the spec defines, with the default parameters. -/
def State.reset : State := State.initial defaultConfig

end Sys2Proof.Machine
end

