-- ==== Sys2Proof/Machine/Ops.lean ====
section
/-! DEFINITION. The named operations over registers, memory, stack, display and outputs that the
meanings share, the checks of spec/20_memory.md, and the raising of a fault. -/

namespace Sys2Proof.Machine

/-- What an instruction or a command answers. -/
abbrev Result := Host.Outcome State Fault Refusal

/-- Apply `f` to the next state, if there is one. -/
def onNext (f : State → State) : Result → Result
  | .next s => .next (f s)
  | .fault r => .fault r
  | .refused r => .refused r

/-! ## General registers (10_state.md R11) -/

/-- Read `V[j]`. -/
def readV (j : RegIdx) (s : State) : Byte := s.v[j.val]

/-- `V[j] <- b`. -/
def writeV (j : RegIdx) (b : Byte) (s : State) : State := { s with v := s.v.set j.val b }

/-- `V[j], V[j+1], ... <- bytes`, ascending (42_index_memory.md R126). -/
def setRegs (v : Vector Byte 16) : Nat → List Byte → Vector Byte 16
  | _, [] => v
  | j, b :: bs => setRegs (v.setIfInBounds j b) (j + 1) bs

/-- `V[0], ..., V[x]`, ascending (42_index_memory.md R125). -/
def lowRegs (x : RegIdx) (s : State) : List Byte := s.v.toList.take (x.val + 1)

/-! ## Program counter (10_state.md R15) -/

/-- `pc <- pc + 2`. -/
def advance (s : State) : State := { s with pc := s.pc + 2 }

/-- `pc <- target`, with nothing added. -/
def jumpTo (target : Word) (s : State) : State := { s with pc := target }

/-- Advance by 2, then by 2 more if the condition holds. -/
def skipIf (c : Bool) (s : State) : State := if c then advance (advance s) else advance s

/-! ## Faults (60_exceptions.md R182, R183) -/

/-- `raise Fault(kind)`: TAKING A FAULT. Nothing is saved and nothing is vectored: every element keeps
its value, the program counter included, except that `RS` becomes the terminal state `kind`. There is
no return from a fault (60_exceptions.md R188); `init` (`reinitialise`) is the only way out. -/
def raise (kind : FaultKind) (s : State) : Result := .next { s with rs := .terminal kind }

/-- Run `body` unless a check made beforehand found a fault (20_memory.md R49). -/
def unlessFault (found : Option FaultKind) (s : State) (body : Result) : Result :=
  match found with
  | some kind => raise kind s
  | none => body

/-! ## Memory (20_memory.md) -/

/-- The byte at `a`, raw access without checks. -/
def memAt (a : Nat) (s : State) : Byte := Memory.read s.cfg s.mem a

/-- Whether `MemRead(a, 1)` would fault (20_memory.md R42). -/
def checkRead (a : Nat) : Option FaultKind :=
  if a > 0xFFF then some .addressFault else none

/-- Whether `MemWrite(a, 1, _)` would fault (20_memory.md R43). -/
def checkWrite (a : Nat) : Option FaultKind :=
  if a > 0xFFF then some .addressFault
  else if a < romBase then some .writeProtectFault
  else none

/-- The first fault among the `n` addresses from `a` up, if any (20_memory.md R49). -/
def checkSpan (check : Nat → Option FaultKind) : Nat → Nat → Option FaultKind
  | _, 0 => none
  | a, n + 1 =>
    match check a with
    | some kind => some kind
    | none => checkSpan check (a + 1) n

/-- The `n` bytes from `a` up, already checked. -/
def loadBytes (a n : Nat) (s : State) : List Byte := Memory.readBytes s.cfg s.mem a n

/-- Store `bytes` at `a` and up, already checked. -/
def storeBytes (a : Nat) (bytes : List Byte) (s : State) : State :=
  { s with mem := Memory.writeBytes s.cfg s.mem a bytes }

/-- `Fetch(pc)`: the big-endian word at `PC`, or nothing where it raises `ADDRESS_FAULT`
(20_memory.md R44). Any address may be fetched from, odd or even (R46). -/
def fetch (s : State) : Option Word :=
  if s.pc.toNat > 0xFFE then none
  else some (wordOfBytes (memAt s.pc.toNat s) (memAt (s.pc.toNat + 1) s))

/-- Store an instruction word where the next fetch reads it. -/
def placeWord (w : Word) (s : State) : State := storeBytes s.pc.toNat (bytesOfWord w) s

/-! ## Call stack (10_state.md R17) -/

/-- Push a return address, or raise `STACK_OVERFLOW` when all 16 slots are in use (40_control_flow.md
R84), and go on with `body`. -/
def pushThen (w : Word) (body : State → State) (s : State) : Result :=
  if h : s.sp.val < 16 then
    .next (body { s with stack := s.stack.set s.sp.val w, sp := ⟨s.sp.val + 1, by omega⟩ })
  else raise .stackOverflow s

/-- Pop a return address into `PC`, or raise `STACK_UNDERFLOW` on an empty stack (40_control_flow.md
R82). The slot keeps its value. -/
def popToPc (s : State) : Result :=
  if h : 0 < s.sp.val then
    .next { s with pc := s.stack[s.sp.val - 1]'(by omega), sp := ⟨s.sp.val - 1, by omega⟩ }
  else raise .stackUnderflow s

/-! ## Display and events (43_display.md) -/

/-- `Pix[y][x]`. -/
def pixAt (x : Fin 64) (y : Fin 32) (p : Screen) : Bool := p[y.val][x.val]

/-- `Pix[y][x] <- b`. -/
def setPix (x : Fin 64) (y : Fin 32) (b : Bool) (p : Screen) : Screen :=
  p.set y.val (p[y.val].set x.val b)

/-- Every cell OFF. -/
def blankScreen : Screen := Vector.replicate 32 (Vector.replicate 64 false)

/-- `emit Redraw`, where the parameter lets it (43_display.md R142). -/
def emitRedraw (s : State) : State :=
  if s.cfg.emitRedrawEvents then { s with events := s.events ++ [.redraw] } else s

/-! ## Keypad (10_state.md R21) -/

/-- `Key[k]`. -/
def keyAt (k : KeyIdx) (s : State) : Bool := s.key[k.val]

/-- `Key[k] <- b`. -/
def setKey (k : KeyIdx) (b : Bool) (s : State) : State := { s with key := s.key.set k.val b }

/-! ## The random byte (41_load_alu.md R112) -/

/-- The byte the random source supplies to this `cycle`: the command's operand, or a free value. -/
def randomByte (s : State) : Byte := s.rand.getD (Config.randByte s.draws)

/-- Consume that byte: the next free draw has another index. -/
def consumeRandom (s : State) : State :=
  if s.rand.isSome then s else { s with draws := s.draws + 1 }

/-! ## Initialisation (70_reset_and_hazards.md R210) -/

/-- `init`: every element of the architecture gets its reset value; parameters and the environment's
inputs are not state of the hardware and stay. -/
def reinitialise (s : State) : State :=
  { State.initial s.cfg with commands := s.commands, draws := s.draws }

end Sys2Proof.Machine
end

