-- ==== Sys2Proof/Machine/Operands.lean ====
section
/-! DEFINITION. The operand forms of the instructions (spec/30_encoding.md R63, 20_memory.md R48). -/

namespace Sys2Proof.Machine

/-- `zext_16(nnn)` (30_encoding.md R63). -/
def addrWord (nnn : Addr) : Word := nnn.setWidth 16

/-- `zext_16(b)` (00_scope.md R8). -/
def byteWord (b : Byte) : Word := b.setWidth 16

/-- The low nibble `b[3:0]`, which selects a key or a glyph; bits 7:4 are ignored
(44_timers_keypad.md R170, 42_index_memory.md R123). -/
def lowNibble (b : Byte) : Fin 16 := (b.extractLsb' 0 4).toFin

/-- The memory base of the block transfers, the BCD store and the sprite reads: `I` as an unbounded
integer, to which small indexes are added without any reduction (20_memory.md R48). -/
def memBase (s : State) : Nat := s.i.toNat

/-- `glyph_addr(d) = FONT_BASE + 5*d` (20_memory.md R50). -/
def glyphAddr (cfg : Config) (d : Fin 16) : Word := BitVec.ofNat 16 (cfg.fontBase.val + 5 * d.val)

/-- The key number `zext_8(k)` that `press_key` commits (44_timers_keypad.md R167). -/
def keyByte (k : KeyIdx) : Byte := BitVec.ofNat 8 k.val

/-- The decimal digits of a byte, hundreds first, one digit a byte (42_index_memory.md R124). -/
def bcdDigits (b : Byte) : List Byte :=
  [BitVec.ofNat 8 (b.toNat / 100), BitVec.ofNat 8 (b.toNat / 10 % 10), BitVec.ofNat 8 (b.toNat % 10)]

end Sys2Proof.Machine
end

