-- ==== Sys2Proof/Machine/ControlFlow.lean ====
section
/-! DEFINITION. The control-transfer instructions (spec/40_control_flow.md). -/

namespace Sys2Proof.Machine

/-- `SYS nnn` (R81): under the policy `invalid` it raises `INVALID_OPCODE`, under `nop` it only
advances; `nnn` is ignored. -/
def execSys (_nnn : Addr) (s : State) : Result :=
  match s.cfg.sysPolicy with
  | .invalid => raise .invalidOpcode s
  | .nop => .next (advance s)

/-- `RET` (R82). -/
def execRet (s : State) : Result := popToPc s

/-- `JP nnn` (R83). -/
def execJp (nnn : Addr) (s : State) : Result := .next (jumpTo (addrWord nnn) s)

/-- `CALL nnn` (R84): pushes the already-advanced return address. -/
def execCall (nnn : Addr) (s : State) : Result := pushThen (s.pc + 2) (jumpTo (addrWord nnn)) s

/-- `SE Vx, kk` (R85). -/
def execSeVxKk (x : RegIdx) (kk : Byte) (s : State) : Result := .next (skipIf (readV x s == kk) s)

/-- `SNE Vx, kk` (R86). -/
def execSneVxKk (x : RegIdx) (kk : Byte) (s : State) : Result := .next (skipIf (readV x s != kk) s)

/-- `SE Vx, Vy` (R87). -/
def execSeVxVy (x y : RegIdx) (s : State) : Result := .next (skipIf (readV x s == readV y s) s)

/-- `SNE Vx, Vy` (R88). -/
def execSneVxVy (x y : RegIdx) (s : State) : Result := .next (skipIf (readV x s != readV y s) s)

/-- `JP V0, nnn` (R89): a 16-bit sum, not reduced to 12 bits. -/
def execJpV0 (nnn : Addr) (s : State) : Result :=
  .next (jumpTo (addrWord nnn + byteWord (readV 0 s)) s)

end Sys2Proof.Machine
end

