-- ==== Sys2Proof/Machine/Flags.lean ====
section
/-! DEFINITION. Results and flags of the ALU (spec/41_load_alu.md R113) and the law of VF: the flag is
computed from the operands before the instruction and written last (spec/10_state.md R12,
90_conflicts.md C1). -/

namespace Sys2Proof.Machine

/-- The number of VF. -/
def flagReg : RegIdx := 15

/-- A flag as the value VF gets, 1 or 0. -/
def flagByte (c : Bool) : Byte := if c then 1 else 0

/-- `(a + b) mod 256`. -/
def sumByte (a b : Byte) : Byte := BitVec.ofNat 8 (a.toNat + b.toNat)

/-- The carry: the 9-bit sum exceeds 255. -/
def carry (a b : Byte) : Bool := decide (a.toNat + b.toNat > 255)

/-- `(a - b) mod 256`, that is `a - b + 256` when `a < b`. -/
def diffByte (a b : Byte) : Byte := BitVec.ofInt 8 ((a.toNat : Int) - b.toNat)

/-- No borrow, strictly: minuend above subtrahend; equal operands give 0. -/
def noBorrow (a b : Byte) : Bool := decide (a.toNat > b.toNat)

/-- `a >> 1`, a 0 shifted in. -/
def halfByte (a : Byte) : Byte := BitVec.ofNat 8 (a.toNat / 2)

/-- `(a << 1) mod 256`, a 0 shifted in. -/
def doubleByte (a : Byte) : Byte := BitVec.ofNat 8 (2 * a.toNat)

/-- The bit a right shift shifts out, `a[0]`. -/
def lowBit (a : Byte) : Bool := a.getLsbD 0

/-- The bit a left shift shifts out, `a[7]`. -/
def highBit (a : Byte) : Bool := a.getLsbD 7

/-- `V[x] <- result`, then `V[0xF] <- flag`: the flag is the write observed afterward (10_state.md
R12). -/
def writeResultThenFlag (x : RegIdx) (result : Byte) (flag : Bool) (s : State) : State :=
  writeV flagReg (flagByte flag) (writeV x result s)

end Sys2Proof.Machine
end

