-- ==== Sys2Proof/Machine/Display.lean ====
section
/-! DEFINITION. `CLS` and `DRW` (spec/43_display.md). -/

namespace Sys2Proof.Machine

/-- `CLS` (R143): every cell OFF, one `Redraw`, VF untouched. -/
def execCls (s : State) : Result := .next (advance (emitRedraw { s with pix := blankScreen }))

/-- The cells the 1 bits of one sprite row address, column ascending and bit 7 first; the coordinates
are reduced modulo 64 and 32, so every pixel wraps by itself (R144). -/
def rowCells (x0 y : Nat) (b : Byte) : List (Fin 64 × Fin 32) :=
  (List.range 8).filterMap fun c =>
    if b.getLsbD (7 - c) then some (Fin.ofNat 64 (x0 + c), Fin.ofNat 32 y) else none

/-- The cells a sprite addresses, row-major (R144). -/
def spriteCells (x0 : Nat) : Nat → List Byte → List (Fin 64 × Fin 32)
  | _, [] => []
  | y, b :: bs => rowCells x0 y b ++ spriteCells x0 (y + 1) bs

/-- What the loop of `DRW` carries: the buffer, the collision flag and the events. -/
structure Drawing where
  pix : Screen
  collision : Bool
  events : List Event
deriving DecidableEq, Repr

/-- One sprite bit equal to 1: the cell is inverted, ON to OFF raises the collision flag, which is
never lowered, and `PixelSet` carries the new state (R144). -/
def drawCell (emitPixel : Bool) (d : Drawing) (c : Fin 64 × Fin 32) : Drawing where
  pix := setPix c.1 c.2 (!pixAt c.1 c.2 d.pix) d.pix
  collision := d.collision || pixAt c.1 c.2 d.pix
  events := if emitPixel then d.events ++ [.pixelSet c.1 c.2 (!pixAt c.1 c.2 d.pix)] else d.events

/-- The loop of `DRW`: the flag starts at 0 (R144). -/
def drawSprite (cells : List (Fin 64 × Fin 32)) (s : State) : Drawing :=
  cells.foldl (drawCell s.cfg.emitPixelEvents) { pix := s.pix, collision := false, events := s.events }

/-- `DRW Vx, Vy, n` (R144): the coordinates are the registers before VF is written, the `n` sprite bytes
are checked before any change, VF is written last, one `Redraw` follows the sprite. -/
def execDrw (x y : RegIdx) (n : Fin 16) (s : State) : Result :=
  unlessFault (checkSpan checkRead (memBase s) n.val) s
    (let d := drawSprite
      (spriteCells (readV x s).toNat (readV y s).toNat (loadBytes (memBase s) n.val s)) s
     .next (advance (emitRedraw
      (writeV flagReg (flagByte d.collision) { s with pix := d.pix, events := d.events }))))

end Sys2Proof.Machine
end

