-- ==== Sys2Proof/Machine/IndexMemory.lean ====
section
/-! DEFINITION. The address-register and memory instructions (spec/42_index_memory.md). Each checks all
its addresses before changing anything (spec/20_memory.md R49) and leaves `I` unchanged. -/

namespace Sys2Proof.Machine

/-- `LD I, nnn` (R121). -/
def execLdI (nnn : Addr) (s : State) : Result := .next (advance { s with i := addrWord nnn })

/-- `ADD I, Vx` (R122): the sum wraps at 16 bits; VF is not written. -/
def execAddIVx (x : RegIdx) (s : State) : Result :=
  .next (advance { s with i := s.i + byteWord (readV x s) })

/-- `LD F, Vx` (R123): the glyph of the low nibble; memory is not accessed. -/
def execLdFVx (x : RegIdx) (s : State) : Result :=
  .next (advance { s with i := glyphAddr s.cfg (lowNibble (readV x s)) })

/-- `LD B, Vx` (R124): three digits at `I`, `I + 1`, `I + 2`. -/
def execLdBVx (x : RegIdx) (s : State) : Result :=
  unlessFault (checkSpan checkWrite (memBase s) 3) s
    (.next (advance (storeBytes (memBase s) (bcdDigits (readV x s)) s)))

/-- `LD [I], Vx` (R125): `V[0]` to `V[x]` at `I` to `I + x`. -/
def execLdMemVx (x : RegIdx) (s : State) : Result :=
  unlessFault (checkSpan checkWrite (memBase s) (x.val + 1)) s
    (.next (advance (storeBytes (memBase s) (lowRegs x s) s)))

/-- `LD Vx, [I]` (R126): the bytes at `I` to `I + x` into `V[0]` to `V[x]`. -/
def execLdVxMem (x : RegIdx) (s : State) : Result :=
  unlessFault (checkSpan checkRead (memBase s) (x.val + 1)) s
    (.next (advance { s with v := setRegs s.v 0 (loadBytes (memBase s) (x.val + 1) s) }))

end Sys2Proof.Machine
end

