-- ==== Sys2Proof/Machine/LoadAlu.lean ====
section
/-! DEFINITION. The register load, ALU and random instructions (spec/41_load_alu.md). -/

namespace Sys2Proof.Machine

/-- `LD Vx, kk` (R101). -/
def execLdVxKk (x : RegIdx) (kk : Byte) (s : State) : Result := .next (advance (writeV x kk s))

/-- `ADD Vx, kk` (R102): VF is not written as a flag. -/
def execAddVxKk (x : RegIdx) (kk : Byte) (s : State) : Result :=
  .next (advance (writeV x (sumByte (readV x s) kk) s))

/-- `LD Vx, Vy` (R103). -/
def execLdVxVy (x y : RegIdx) (s : State) : Result := .next (advance (writeV x (readV y s) s))

/-- `OR Vx, Vy` (R104): VF unchanged. -/
def execOrVxVy (x y : RegIdx) (s : State) : Result :=
  .next (advance (writeV x (readV x s ||| readV y s) s))

/-- `AND Vx, Vy` (R105): VF unchanged. -/
def execAndVxVy (x y : RegIdx) (s : State) : Result :=
  .next (advance (writeV x (readV x s &&& readV y s) s))

/-- `XOR Vx, Vy` (R106): VF unchanged. -/
def execXorVxVy (x y : RegIdx) (s : State) : Result :=
  .next (advance (writeV x (readV x s ^^^ readV y s) s))

/-- `ADD Vx, Vy` (R107): VF is the carry out. -/
def execAddVxVy (x y : RegIdx) (s : State) : Result :=
  .next (advance (writeResultThenFlag x (sumByte (readV x s) (readV y s))
    (carry (readV x s) (readV y s)) s))

/-- `SUB Vx, Vy` (R108): VF is 1 iff `V[x] > V[y]`, strictly. -/
def execSubVxVy (x y : RegIdx) (s : State) : Result :=
  .next (advance (writeResultThenFlag x (diffByte (readV x s) (readV y s))
    (noBorrow (readV x s) (readV y s)) s))

/-- `SHR Vx` (R109): shifts `V[x]`; `y` is ignored. -/
def execShrVx (x _y : RegIdx) (s : State) : Result :=
  .next (advance (writeResultThenFlag x (halfByte (readV x s)) (lowBit (readV x s)) s))

/-- `SUBN Vx, Vy` (R110): the mirror of `SUB`. -/
def execSubnVxVy (x y : RegIdx) (s : State) : Result :=
  .next (advance (writeResultThenFlag x (diffByte (readV y s) (readV x s))
    (noBorrow (readV y s) (readV x s)) s))

/-- `SHL Vx` (R111): shifts `V[x]`; `y` is ignored. -/
def execShlVx (x _y : RegIdx) (s : State) : Result :=
  .next (advance (writeResultThenFlag x (doubleByte (readV x s)) (highBit (readV x s)) s))

/-- `RND Vx, kk` (R112): one random byte is consumed and masked. -/
def execRndVxKk (x : RegIdx) (kk : Byte) (s : State) : Result :=
  .next (advance (writeV x (randomByte s &&& kk) (consumeRandom s)))

end Sys2Proof.Machine
end

