-- ==== Sys2Proof/Machine/TimerKeypad.lean ====
section
/-! DEFINITION. The timer and keypad instructions (spec/44_timers_keypad.md). -/

namespace Sys2Proof.Machine

/-- `LD Vx, DT` (R160). -/
def execLdVxDt (x : RegIdx) (s : State) : Result := .next (advance (writeV x s.dt s))

/-- `LD DT, Vx` (R161). -/
def execLdDtVx (x : RegIdx) (s : State) : Result := .next (advance { s with dt := readV x s })

/-- `LD ST, Vx` (R162). -/
def execLdStVx (x : RegIdx) (s : State) : Result := .next (advance { s with st := readV x s })

/-- `SKP Vx` (R163): the level of the key the low nibble selects. -/
def execSkpVx (x : RegIdx) (s : State) : Result :=
  .next (skipIf (keyAt (lowNibble (readV x s)) s) s)

/-- `SKNP Vx` (R164). -/
def execSknpVx (x : RegIdx) (s : State) : Result :=
  .next (skipIf (!keyAt (lowNibble (readV x s)) s) s)

/-- `LD Vx, K` (R165): records the destination and enters the wait; `V[x]` is written later, by
`press_key`. -/
def execLdVxK (x : RegIdx) (s : State) : Result :=
  .next (advance { s with wt := x, rs := .waitingForInput })

end Sys2Proof.Machine
end

