-- ==== Sys2Proof/Machine/Commands.lean ====
section
/-! DEFINITION. The eight commands of the environment (spec/00_scope.md R9): `cycle`
(60_exceptions.md R181), `tick_timers`, `press_key`, `release_key` (44_timers_keypad.md R166 to R168),
`init`, `load_rom` (70_reset_and_hazards.md R210, R212, R213), `get_run_state` and `get_screen`
(10_state.md R26). -/

namespace Sys2Proof.Machine

/-- Every command starts with no response and an empty event sequence (00_scope.md R8). -/
def beginCommand (s : State) : State := { s with response := none, events := [] }

/-! ## `cycle` -/

/-- The start of a `cycle` whose random operand is `rand` (00_scope.md R9). -/
def beginCycle (rand : Option Byte) (s : State) : State := { beginCommand s with rand := rand }

/-- What a `cycle` that ends in run state `rs` responds: `Fail(kind)` in the terminal state `kind`, else
`Ok` (60_exceptions.md R181). -/
def cycleResponse : RunState → Response
  | .terminal kind => .fail kind
  | .running => .ok
  | .waitingForInput => .ok

/-- The end of a `cycle`: its response is given and its random operand is gone. -/
def endCycle (s : State) : State := { s with response := some (cycleResponse s.rs), rand := none }

/-- Fetch, decode, execute, in the order of 60_exceptions.md R185; a failed check raises its fault. -/
def fetchDecodeExecute (s : State) : Result :=
  match fetch s with
  | none => raise .addressFault s
  | some w =>
    match decode w with
    | .invalid _ => raise .invalidOpcode s
    | .instr i => exec i s

/-- The top-level step of 60_exceptions.md R181: only `RUNNING` fetches anything. -/
def runCycle (s : State) : Result :=
  match s.rs with
  | .running => fetchDecodeExecute s
  | .waitingForInput => .next s
  | .terminal _ => .next s

/-- `cycle(rand)`; without an operand the random byte is free. -/
def cycle (rand : Option Byte) (s : State) : Result := onNext endCycle (runCycle (beginCycle rand s))

/-! ## The other commands -/

/-- Decrement a timer, floor zero. -/
def countDown (t : Byte) : Byte := if t = 0 then 0 else t - 1

/-- `tick_timers` (R166): both timers, only while `RUNNING`. -/
def tickTimers (s : State) : State :=
  if s.rs = .running then { s with dt := countDown s.dt, st := countDown s.st } else s

/-- `press_key(k)` (R167): the key is held; during a wait its number is committed and the engine
resumes. -/
def pressKey (k : KeyIdx) (s : State) : State :=
  let held := setKey k true s
  if s.rs = .waitingForInput then { writeV s.wt (keyByte k) held with rs := .running } else held

/-- `release_key(k)` (R168). -/
def releaseKey (k : KeyIdx) (s : State) : State := setKey k false s

/-- The longest ROM, `ROM_MAX` (00_scope.md R6). -/
def romMax : Nat := 3584

/-- `load_rom(bytes)` (70_reset_and_hazards.md R212, R213): a direct copy to 0x200 and up, or
`RomTooLarge` and no change. -/
def loadRom (bytes : List Byte) (s : State) : State :=
  if bytes.length > romMax then { s with response := some .romTooLarge }
  else { storeBytes romBase bytes s with response := some .ok }

/-- Serve one command. -/
def serve (c : Command) (s : State) : Result :=
  match c with
  | .init => .next (reinitialise s)
  | .loadRom bytes => .next (loadRom bytes (beginCommand s))
  | .cycle rand => cycle (some rand) s
  | .tickTimers => .next (tickTimers (beginCommand s))
  | .pressKey k => .next (pressKey k (beginCommand s))
  | .releaseKey k => .next (releaseKey k (beginCommand s))
  | .getRunState => .next { beginCommand s with response := some (.runState s.rs) }
  | .getScreen => .next { beginCommand s with response := some (.screen s.pix) }

/-- Serve the environment's next command: the head of its list, or `cycle` when the list is empty (log
entry 1). -/
def serveNext (s : State) : Result :=
  match s.commands with
  | [] => cycle none s
  | c :: cs => serve c { s with commands := cs }

/-- The machine about to serve a `cycle` that fetches: no other command comes first, the engine runs,
and `PC` can be fetched from (the entry point if it could not; log entry 7). -/
def readyToFetch (s : State) : State :=
  { s with
    commands := []
    rs := .running
    pc := if s.pc.toNat > 0xFFE then 0x0200 else s.pc }

end Sys2Proof.Machine
end

