-- ==== Sys2Proof/Machine/Step.lean ====
section
/-! DEFINITION. One step of the machine: one command of the environment is served. -/

namespace Sys2Proof.Machine

/-- One step (spec/00_scope.md R5: one step relation labelled by commands; log entry 1). -/
def step (s : State) : Host.Outcome State Fault Refusal := serveNext s

/-- `s` with the instruction of a row of the opcode table stored where the next step fetches it (log
entry 7). -/
def State.withFetchWord (s : State) (nbits w : Nat) : State :=
  placeWord (tableWord nbits w) (readyToFetch s)

end Sys2Proof.Machine
end

