-- ==== Sys2Proof/Safety.lean ====
section
/-! DEFINITION. What counts as a safe run and as a stopped one (spec/70_reset_and_hazards.md R220), and
the invariant of the machine. -/

namespace Sys2Proof.Machine

/-- The run state is no terminal state: the premise of every claim of correct execution (R220). -/
def State.live (s : State) : Prop := ∀ kind, s.rs ≠ .terminal kind

/-- A run has stopped: `RS` is terminal, or the engine runs at a self-jump `JP PC` (R220). -/
def State.stopped (s : State) : Prop :=
  (∃ kind, s.rs = .terminal kind) ∨
    (s.rs = .running ∧ s.pc.toNat ≤ 0xFFE ∧ fetch s = some (0x1000#16 ||| s.pc))

/-- What holds after `init` and is kept by every step. -/
structure State.Inv (s : State) : Prop where
  /-- Memory keeps its canonical form. -/
  memCanonical : Memory.wf s.cfg s.mem = true
  /-- No byte below 0x200 differs from what `init` left (60_exceptions.md R201). -/
  reservedKept : ∀ c ∈ s.mem, romBase ≤ c.1
  /-- The program counter never exceeds 0x10FE (10_state.md R16). -/
  pcBound : s.pc.toNat ≤ 0x10FE
  /-- A stack slot never holds more than 0x1000 (10_state.md R16). -/
  stackBound : ∀ j : Fin 16, (s.stack[j.val]).toNat ≤ 0x1000
  /-- `UNSUPPORTED_OPCODE` is never entered (60_exceptions.md R197). -/
  neverUnsupported : s.rs ≠ .terminal .unsupportedOpcode
  /-- Between commands no random operand is held (10_state.md R24). -/
  noOperandHeld : s.rand = none

end Sys2Proof.Machine
end

