-- ==== Sys2Proof/Certificates/Slice0/Obligations.lean ====
section
/-! DEFINITION. The statements for the provers, taken from the numbered rules of spec/. The helpers come
first: words written out as numbers, the shapes of results, the sprite as a set of cells. -/

open Sys2Proof Sys2Proof.Machine

/-! ## Helpers: words as the spec's patterns give them (30_encoding.md R62, R65) -/

/-- The word `cnnn`. -/
def Sys2Proof.Claims.wordA (c : Nat) (nnn : Addr) : Word := BitVec.ofNat 16 (c * 0x1000 + nnn.toNat)

/-- The word `cxkk`. -/
def Sys2Proof.Claims.wordXK (c : Nat) (x : RegIdx) (kk : Byte) : Word :=
  BitVec.ofNat 16 (c * 0x1000 + x.val * 0x100 + kk.toNat)

/-- The word `cxym`. -/
def Sys2Proof.Claims.wordXY (c : Nat) (x y : RegIdx) (m : Nat) : Word :=
  BitVec.ofNat 16 (c * 0x1000 + x.val * 0x100 + y.val * 0x10 + m)

/-- The words of 30_encoding.md R66, `SYS` under the policy `invalid` among them. -/
def Sys2Proof.Claims.illegalWord (cfg : Config) (w : Word) : Prop :=
  (w.toNat / 0x1000 = 0x5 ∧ w.toNat % 0x10 ≠ 0) ∨
  (w.toNat / 0x1000 = 0x8 ∧ w.toNat % 0x10 ∈ [0x8, 0x9, 0xA, 0xB, 0xC, 0xD, 0xF]) ∨
  (w.toNat / 0x1000 = 0x9 ∧ w.toNat % 0x10 ≠ 0) ∨
  (w.toNat / 0x1000 = 0xE ∧ w.toNat % 0x100 ∉ [0x9E, 0xA1]) ∨
  (w.toNat / 0x1000 = 0xF ∧
    w.toNat % 0x100 ∉ [0x07, 0x0A, 0x15, 0x18, 0x1E, 0x29, 0x33, 0x55, 0x65]) ∨
  (w.toNat / 0x1000 = 0x0 ∧ w.toNat ∉ [0x00E0, 0x00EE] ∧ cfg.sysPolicy = .invalid)

/-! ## Helpers: shapes of results, each with its frame -/

/-- The answer is the next state in which `V[x]` holds `value`, the program counter has advanced by 2
and nothing else has changed. -/
def Sys2Proof.Claims.writesReg (r : Result) (s : State) (x : RegIdx) (value : Nat) : Prop :=
  ∃ t, r = .next t ∧ t = { s with v := t.v, pc := s.pc + 2 } ∧
    ∀ j, (readV j t).toNat = if j = x then value else (readV j s).toNat

/-- The answer is the next state in which VF holds `flag`, `V[x]` holds `value` unless it is VF, the
program counter has advanced by 2 and nothing else has changed. -/
def Sys2Proof.Claims.writesRegAndFlag (r : Result) (s : State) (x : RegIdx) (value flag : Nat) : Prop :=
  ∃ t, r = .next t ∧ t = { s with v := t.v, pc := s.pc + 2 } ∧
    ∀ j, (readV j t).toNat =
      if j = 0xF then flag else if j = x then value else (readV j s).toNat

/-- The answer is the next state in which only the program counter has changed, by 4 if `c` holds and
by 2 otherwise. -/
def Sys2Proof.Claims.skipsWhen (r : Result) (s : State) (c : Prop) : Prop :=
  ∃ t, r = .next t ∧ t = { s with pc := t.pc } ∧ (c → t.pc = s.pc + 4) ∧ (¬c → t.pc = s.pc + 2)

/-- The answer is the state in which the fault `kind` has been taken: only `RS` differs
(60_exceptions.md R183). -/
def Sys2Proof.Claims.faults (r : Result) (s : State) (kind : FaultKind) : Prop :=
  r = .next { s with rs := .terminal kind }

/-! ## Helpers: the sprite of `DRW` (43_display.md R144, R145) -/

/-- Bit `7 - c` of the sprite byte of row `r`: the sprite's pixel in its own column `c`. -/
def Sys2Proof.Claims.spriteBit (s : State) (r c : Nat) : Bool :=
  (memAt (s.i.toNat + r) s).getLsbD (7 - c)

/-- Whether a 1 bit of the sprite addresses the cell at column `px` and row `py`. -/
def Sys2Proof.Claims.covers (s : State) (x y : RegIdx) (n : Fin 16) (px : Fin 64) (py : Fin 32) : Prop :=
  ∃ r c, r < n.val ∧ c < 8 ∧ Sys2Proof.Claims.spriteBit s r c = true ∧
    ((readV x s).toNat + c) % 64 = px.val ∧ ((readV y s).toNat + r) % 32 = py.val

/-- The `PixelSet` events of a sprite: row-major, one for each 1 bit, carrying the new state of the
cell, which is the inverse of the cell's state before the instruction. -/
def Sys2Proof.Claims.pixelEvents (s : State) (x y : RegIdx) (n : Fin 16) : List Event :=
  (List.range n.val).flatMap fun r => (List.range 8).filterMap fun c =>
    if Sys2Proof.Claims.spriteBit s r c then
      some (.pixelSet (Fin.ofNat 64 ((readV x s).toNat + c)) (Fin.ofNat 32 ((readV y s).toNat + r))
        (!pixAt (Fin.ofNat 64 ((readV x s).toNat + c)) (Fin.ofNat 32 ((readV y s).toNat + r)) s.pix))
    else none

/-- The events `DRW` appends under the parameters. -/
def Sys2Proof.Claims.drawEvents (s : State) (x y : RegIdx) (n : Fin 16) : List Event :=
  (if s.cfg.emitPixelEvents then Sys2Proof.Claims.pixelEvents s x y n else []) ++
    (if s.cfg.emitRedrawEvents then [.redraw] else [])

/-! ## Helpers: what each instruction may write -/

/-- The general registers an instruction may write: its destination, and VF for the six that write it
as a flag (10_state.md R12). -/
def Sys2Proof.Claims.mayWriteReg (i : Instr) (j : RegIdx) : Prop :=
  match i with
  | .ldVxKk x _ | .addVxKk x _ | .rndVxKk x _ | .ldVxDt x => j = x
  | .ldVxVy x _ | .orVxVy x _ | .andVxVy x _ | .xorVxVy x _ => j = x
  | .addVxVy x _ | .subVxVy x _ | .shrVx x _ | .subnVxVy x _ | .shlVx x _ => j = x ∨ j = 0xF
  | .drw _ _ _ => j = 0xF
  | .ldVxMem x => j ≤ x
  | _ => False

/-- The number of bytes an instruction stores from `I` up: three digits, `x + 1` registers, none
(20_memory.md R56). -/
def Sys2Proof.Claims.storedLength : Instr → Nat
  | .ldBVx _ => 3
  | .ldMemVx x => x.val + 1
  | _ => 0

/-- The value of `PC` after an instruction that does not fault (10_state.md R15). -/
def Sys2Proof.Claims.nextPc (i : Instr) (s : State) : Nat :=
  match i with
  | .jp nnn => nnn.toNat
  | .jpV0 nnn => nnn.toNat + (readV 0 s).toNat
  | .call nnn => nnn.toNat
  | .ret => if h : s.sp.val = 0 then 0 else (s.stack[s.sp.val - 1]'(by omega)).toNat
  | .seVxKk x kk => s.pc.toNat + if readV x s = kk then 4 else 2
  | .sneVxKk x kk => s.pc.toNat + if readV x s = kk then 2 else 4
  | .seVxVy x y => s.pc.toNat + if readV x s = readV y s then 4 else 2
  | .sneVxVy x y => s.pc.toNat + if readV x s = readV y s then 2 else 4
  | .skpVx x => s.pc.toNat + if keyAt (lowNibble (readV x s)) s then 4 else 2
  | .sknpVx x => s.pc.toNat + if keyAt (lowNibble (readV x s)) s then 2 else 4
  | _ => s.pc.toNat + 2

/-! ## Helpers: commands

The model holds the environment's commands in a list of the state, and an empty list stands for a
`cycle` whose random operand is free (log entry 1): the model's form of the inputs that the spec's step
relation is labelled by (00_scope.md R5). -/

/-- The next step serves a `cycle`: the environment's list starts with it (its random operand is then
`rand` and `cs` is what follows), or is empty (log entry 1). -/
def Sys2Proof.Claims.cycleNext (s : State) (rand : Option Byte) (cs : List Command) : Prop :=
  (s.commands = [] ∧ rand = none ∧ cs = []) ∨ ∃ b, s.commands = .cycle b :: cs ∧ rand = some b

/-- The state a `cycle` executes its instruction in: the command is taken off the list, nothing has
been responded or emitted yet, and the random operand is held. -/
def Sys2Proof.Claims.inCycle (s : State) (rand : Option Byte) (cs : List Command) : State :=
  { s with commands := cs, rand := rand, response := none, events := [] }

/-- The state a `cycle` ends in, given the state `t` its work ended in: it responds `resp`. -/
def Sys2Proof.Claims.responds (t : State) (resp : Response) : State :=
  { t with rand := none, response := some resp }

/-- The word at `PC`, big-endian, where both its bytes exist (20_memory.md R44). -/
def Sys2Proof.Claims.wordAtPc (s : State) : Nat :=
  (memAt s.pc.toNat s).toNat * 0x100 + (memAt (s.pc.toNat + 1) s).toNat

/-! ## Helpers: when a fault is raised (60_exceptions.md R182, R185) -/

/-- The fault an instruction raises: the table of R182, with the addresses of each memory instruction
written out; nothing where it raises none. -/
def Sys2Proof.Claims.instrFault (i : Instr) (s : State) : Option FaultKind :=
  match i with
  | .sys _ => if s.cfg.sysPolicy = .invalid then some .invalidOpcode else none
  | .call _ => if s.sp.val = 16 then some .stackOverflow else none
  | .ret => if s.sp.val = 0 then some .stackUnderflow else none
  | .ldBVx _ =>
    if s.i.toNat < 0x200 then some .writeProtectFault
    else if s.i.toNat + 2 > 0xFFF then some .addressFault
    else none
  | .ldMemVx x =>
    if s.i.toNat < 0x200 then some .writeProtectFault
    else if s.i.toNat + x.val > 0xFFF then some .addressFault
    else none
  | .ldVxMem x => if s.i.toNat + x.val > 0xFFF then some .addressFault else none
  | .drw _ _ n => if n.val ≠ 0 ∧ s.i.toNat + n.val - 1 > 0xFFF then some .addressFault else none
  | _ => none

/-- The fault a `cycle` of a running machine raises, in the order of R185: the fetch, the decoding, the
instruction's own condition; nothing where it raises none. -/
def Sys2Proof.Claims.cycleFault (s : State) : Option FaultKind :=
  if s.pc.toNat > 0xFFE then some .addressFault
  else
    match decode (BitVec.ofNat 16 (Sys2Proof.Claims.wordAtPc s)) with
    | .invalid _ => some .invalidOpcode
    | .instr i => Sys2Proof.Claims.instrFault i s

/-! ## Encoding -/

/-- Words of spec/95_test_vectors.md and 40 to 44 decode to the instructions the patterns of R65 give,
one or more for each family; and words of R66 are rejected. A sanity statement. -/
def Obligations.KnownWordsDecode : Prop :=
  decode 0x00E0 = .instr .cls ∧ decode 0x00EE = .instr .ret ∧ decode 0x0123 = .instr (.sys 0x123) ∧
  decode 0x1ABC = .instr (.jp 0xABC) ∧ decode 0x5AB0 = .instr (.seVxVy 0xA 0xB) ∧
  decode 0x7320 = .instr (.addVxKk 3 0x20) ∧ decode 0x8AB7 = .instr (.subnVxVy 0xA 0xB) ∧
  decode 0x8ABE = .instr (.shlVx 0xA 0xB) ∧ decode 0xA300 = .instr (.ldI 0x300) ∧
  decode 0xD125 = .instr (.drw 1 2 5) ∧ decode 0xE1A1 = .instr (.sknpVx 1) ∧
  decode 0xF155 = .instr (.ldMemVx 1) ∧ decode 0xF165 = .instr (.ldVxMem 1) ∧
  decode 0x8AB8 = .invalid .class8Modifier ∧ decode 0xFFFF = .invalid .classFModifier

/-- Decode and encode agree on every well-formed instruction with every operand. -/
def Obligations.DecodeOfEncodeIsIdentity : Prop :=
  ∀ i : Instr, i.wellFormed = true → decode (encode i) = .instr i

/-- Decoding is strict and loses no bit: a word that decodes is the encoding of what it decodes to, and
that is well formed; so no two instructions share a word and no opcode bit is ignored. -/
def Obligations.EncodeOfDecodeIsIdentity : Prop :=
  ∀ (w : Word) (i : Instr), decode w = .instr i → encode i = w ∧ i.wellFormed = true

/-- The row of spec/opcode_table.json: the decoder of a table word reads the two bytes in the order the
fetch reads them, so a table word decodes exactly as the same word in memory. -/
def Obligations.TableWordsAreFetchedWords : Prop :=
  ∀ (s : State) (w : Nat), w < 0x10000 → s.pc.toNat ≤ 0xFFE → Memory.wf s.cfg s.mem = true →
    fetch (s.withFetchWord 16 w) = some (BitVec.ofNat 16 w) ∧
    (∀ i, decodeTableWord 16 w = some i ↔ decode (BitVec.ofNat 16 w) = .instr i)

/-! ## The step -/

/-- A step runs the decoded instruction: when a `cycle` is next, the engine runs, and the two bytes at
the program counter are the encoding of the well-formed instruction `i`, the step is `exec i` of the
state the cycle executes in, followed by the response, which is `Ok` unless `exec` ended in a terminal
state. -/
def Obligations.StepRunsDecodedInstruction : Prop :=
  ∀ (s t : State) (rand : Option Byte) (cs : List Command) (i : Instr),
    Sys2Proof.Claims.cycleNext s rand cs → s.rs = .running → s.pc.toNat ≤ 0xFFE →
    i.wellFormed = true →
    wordOfBytes (memAt s.pc.toNat s) (memAt (s.pc.toNat + 1) s) = encode i →
    exec i (Sys2Proof.Claims.inCycle s rand cs) = .next t →
    ((∀ kind, t.rs ≠ .terminal kind) → step s = .next (Sys2Proof.Claims.responds t .ok)) ∧
    ∀ kind, t.rs = .terminal kind → step s = .next (Sys2Proof.Claims.responds t (.fail kind))

/-- R181, the whole `cycle`: in `WAITING_FOR_INPUT` it responds `Ok` and does nothing; in a terminal
state it responds the same failure and does nothing; while `RUNNING` an unfetchable `PC` raises
`ADDRESS_FAULT`, a word that does not decode raises `INVALID_OPCODE`, and any other word is executed
and answered by `Ok`, or, if it raised a fault, has every state change and event discarded but the run
state, and the fault is the response. In every case the random operand is gone afterwards. -/
def Obligations.CycleTopLevel : Prop :=
  ∀ (s : State) (rand : Option Byte) (cs : List Command), Sys2Proof.Claims.cycleNext s rand cs →
    (s.rs = .waitingForInput →
      step s = .next (Sys2Proof.Claims.responds (Sys2Proof.Claims.inCycle s rand cs) .ok)) ∧
    (∀ kind, s.rs = .terminal kind →
      step s = .next (Sys2Proof.Claims.responds (Sys2Proof.Claims.inCycle s rand cs) (.fail kind))) ∧
    (s.rs = .running → s.pc.toNat > 0xFFE →
      step s = .next (Sys2Proof.Claims.responds
        { Sys2Proof.Claims.inCycle s rand cs with rs := .terminal .addressFault }
        (.fail .addressFault))) ∧
    (s.rs = .running → s.pc.toNat ≤ 0xFFE →
      (∀ why, decode (BitVec.ofNat 16 (Sys2Proof.Claims.wordAtPc s)) = .invalid why →
        step s = .next (Sys2Proof.Claims.responds
          { Sys2Proof.Claims.inCycle s rand cs with rs := .terminal .invalidOpcode }
          (.fail .invalidOpcode))) ∧
      (∀ i, decode (BitVec.ofNat 16 (Sys2Proof.Claims.wordAtPc s)) = .instr i →
        ∃ t, exec i (Sys2Proof.Claims.inCycle s rand cs) = .next t ∧
          ((∀ kind, t.rs ≠ .terminal kind) → step s = .next (Sys2Proof.Claims.responds t .ok)) ∧
          ∀ kind, t.rs = .terminal kind →
            step s = .next (Sys2Proof.Claims.responds
              { Sys2Proof.Claims.inCycle s rand cs with rs := .terminal kind } (.fail kind))))

/-- R44: `Fetch` gives the big-endian word of the bytes at `PC` and `PC + 1`, at odd addresses too, and
nothing (the `ADDRESS_FAULT` of the cycle) when `PC > 0xFFE`. -/
def Obligations.FetchIsBigEndianAndBounded : Prop :=
  ∀ s : State,
    (s.pc.toNat > 0xFFE → fetch s = none ∧
      ∀ rand cs, Sys2Proof.Claims.cycleNext s rand cs → s.rs = .running →
        step s = .next (Sys2Proof.Claims.responds
          { Sys2Proof.Claims.inCycle s rand cs with rs := .terminal .addressFault }
          (.fail .addressFault))) ∧
    (s.pc.toNat ≤ 0xFFE → ∃ w, fetch s = some w ∧
      w.toNat / 0x100 = (memAt s.pc.toNat s).toNat ∧
      w.toNat % 0x100 = (memAt (s.pc.toNat + 1) s).toNat)

/-- R66 and R196: exactly the words of the list end a cycle in `INVALID_OPCODE`; the program counter
and everything else but `RS` keep their values and the cycle responds the failure. -/
def Obligations.IllegalWordsEndInInvalidOpcode : Prop :=
  ∀ (s : State) (rand : Option Byte) (cs : List Command),
    Sys2Proof.Claims.cycleNext s rand cs → s.rs = .running → s.pc.toNat ≤ 0xFFE →
    (Sys2Proof.Claims.illegalWord s.cfg (BitVec.ofNat 16 (Sys2Proof.Claims.wordAtPc s)) →
      step s = .next (Sys2Proof.Claims.responds
        { Sys2Proof.Claims.inCycle s rand cs with rs := .terminal .invalidOpcode }
        (.fail .invalidOpcode))) ∧
    (¬Sys2Proof.Claims.illegalWord s.cfg (BitVec.ofNat 16 (Sys2Proof.Claims.wordAtPc s)) →
      ∃ t, step s = .next t ∧ t.rs ≠ .terminal .invalidOpcode)

/-! ## Control transfer (40_control_flow.md) -/

/-- R81: `SYS nnn` decodes from `0nnn` other than the two exact words; under the policy `invalid` it
raises `INVALID_OPCODE`, under `nop` it advances the program counter by 2 and does nothing else. -/
def Obligations.SysFollowsPolicy : Prop :=
  (∀ nnn : Addr, nnn ≠ 0x0E0 → nnn ≠ 0x0EE →
    decode (Sys2Proof.Claims.wordA 0x0 nnn) = .instr (.sys nnn)) ∧
  ∀ (nnn : Addr) (s : State),
    (s.cfg.sysPolicy = .invalid → Sys2Proof.Claims.faults (exec (.sys nnn) s) s .invalidOpcode) ∧
    (s.cfg.sysPolicy = .nop → exec (.sys nnn) s = .next { s with pc := s.pc + 2 })

/-- R83, R89: the two jumps set `PC` to `nnn` and to the unreduced 16-bit sum `nnn + V[0]`, and change
nothing else. -/
def Obligations.JumpsSetPc : Prop :=
  ∀ (nnn : Addr) (s : State),
    decode (Sys2Proof.Claims.wordA 0x1 nnn) = .instr (.jp nnn) ∧
    (∃ t, exec (.jp nnn) s = .next t ∧ t = { s with pc := t.pc } ∧ t.pc.toNat = nnn.toNat) ∧
    decode (Sys2Proof.Claims.wordA 0xB nnn) = .instr (.jpV0 nnn) ∧
    (∃ t, exec (.jpV0 nnn) s = .next t ∧ t = { s with pc := t.pc } ∧
      t.pc.toNat = nnn.toNat + (readV 0 s).toNat)

/-- R84, R198: `CALL` pushes the already-advanced address, counts the slot and jumps, changing no other
slot and nothing else; with all 16 slots in use it raises `STACK_OVERFLOW` and changes nothing. -/
def Obligations.CallPushesReturnAddress : Prop :=
  ∀ (nnn : Addr) (s : State),
    decode (Sys2Proof.Claims.wordA 0x2 nnn) = .instr (.call nnn) ∧
    (s.sp.val ≠ 16 → ∃ t, exec (.call nnn) s = .next t ∧
      t = { s with pc := t.pc, sp := t.sp, stack := t.stack } ∧
      t.pc.toNat = nnn.toNat ∧ t.sp.val = s.sp.val + 1 ∧
      ∀ j : Fin 16, t.stack[j.val] = if j.val = s.sp.val then s.pc + 2 else s.stack[j.val]) ∧
    (s.sp.val = 16 → Sys2Proof.Claims.faults (exec (.call nnn) s) s .stackOverflow)

/-- R82, R199: `RET` takes the newest slot as the program counter, with nothing added, uncounts it and
leaves every slot's contents; on an empty stack it raises `STACK_UNDERFLOW` and changes nothing. -/
def Obligations.RetPopsReturnAddress : Prop :=
  decode 0x00EE = .instr .ret ∧
  ∀ s : State,
    (s.sp.val = 0 → Sys2Proof.Claims.faults (exec .ret s) s .stackUnderflow) ∧
    (s.sp.val ≠ 0 → ∃ t, exec .ret s = .next t ∧ t = { s with pc := t.pc, sp := t.sp } ∧
      t.sp.val + 1 = s.sp.val ∧ ∀ j : Fin 16, j.val = t.sp.val → t.pc = s.stack[j.val])

/-- `CALL` and then `RET` come back to the instruction after the call with the stack pointer at its
pre-call depth; besides the program counter only the slot above the stack has changed. -/
def Obligations.CallThenRetReturns : Prop :=
  ∀ (nnn : Addr) (s : State), s.sp.val ≠ 16 →
    ∃ t u, exec (.call nnn) s = .next t ∧ exec .ret t = .next u ∧
      u = { s with pc := s.pc + 2, stack := u.stack } ∧
      ∀ j : Fin 16, j.val ≠ s.sp.val → u.stack[j.val] = s.stack[j.val]

/-- R85 to R88: the four register skips add 2, and 2 more exactly when their condition holds; they
change nothing else. -/
def Obligations.RegisterSkips : Prop :=
  ∀ (x y : RegIdx) (kk : Byte) (s : State),
    decode (Sys2Proof.Claims.wordXK 0x3 x kk) = .instr (.seVxKk x kk) ∧
    Sys2Proof.Claims.skipsWhen (exec (.seVxKk x kk) s) s (readV x s = kk) ∧
    decode (Sys2Proof.Claims.wordXK 0x4 x kk) = .instr (.sneVxKk x kk) ∧
    Sys2Proof.Claims.skipsWhen (exec (.sneVxKk x kk) s) s (readV x s ≠ kk) ∧
    decode (Sys2Proof.Claims.wordXY 0x5 x y 0) = .instr (.seVxVy x y) ∧
    Sys2Proof.Claims.skipsWhen (exec (.seVxVy x y) s) s (readV x s = readV y s) ∧
    decode (Sys2Proof.Claims.wordXY 0x9 x y 0) = .instr (.sneVxVy x y) ∧
    Sys2Proof.Claims.skipsWhen (exec (.sneVxVy x y) s) s (readV x s ≠ readV y s)

/-- R220: a run that has stopped, in a terminal state or at the self-jump `JP PC`, stays stopped: a
further `cycle`, whatever its random operand, changes nothing but the outputs (and takes itself off the
environment's list, log entry 1). -/
def Obligations.StoppedStaysStopped : Prop :=
  ∀ (s : State) (rand : Option Byte) (cs : List Command),
    Sys2Proof.Claims.cycleNext s rand cs → s.stopped →
    ∃ t, step s = .next t ∧ t.stopped ∧
      t = { s with commands := cs, rand := none, response := t.response, events := [] }

/-! ## Load, ALU, random (41_load_alu.md) -/

/-- R101 to R103: loads of a byte and of a register and the addition of a byte write `V[x]` and nothing
else; the sum is reduced modulo 256 and VF is no flag here. -/
def Obligations.LoadsAndAddImmediate : Prop :=
  ∀ (x y : RegIdx) (kk : Byte) (s : State),
    decode (Sys2Proof.Claims.wordXK 0x6 x kk) = .instr (.ldVxKk x kk) ∧
    Sys2Proof.Claims.writesReg (exec (.ldVxKk x kk) s) s x kk.toNat ∧
    decode (Sys2Proof.Claims.wordXK 0x7 x kk) = .instr (.addVxKk x kk) ∧
    Sys2Proof.Claims.writesReg (exec (.addVxKk x kk) s) s x
      (((readV x s).toNat + kk.toNat) % 256) ∧
    decode (Sys2Proof.Claims.wordXY 0x8 x y 0x0) = .instr (.ldVxVy x y) ∧
    Sys2Proof.Claims.writesReg (exec (.ldVxVy x y) s) s x (readV y s).toNat

/-- R104 to R106: OR, AND and XOR write `V[x]` and nothing else, VF included. -/
def Obligations.LogicLeavesFlagAlone : Prop :=
  ∀ (x y : RegIdx) (s : State),
    decode (Sys2Proof.Claims.wordXY 0x8 x y 0x1) = .instr (.orVxVy x y) ∧
    Sys2Proof.Claims.writesReg (exec (.orVxVy x y) s) s x ((readV x s).toNat ||| (readV y s).toNat) ∧
    decode (Sys2Proof.Claims.wordXY 0x8 x y 0x2) = .instr (.andVxVy x y) ∧
    Sys2Proof.Claims.writesReg (exec (.andVxVy x y) s) s x ((readV x s).toNat &&& (readV y s).toNat) ∧
    decode (Sys2Proof.Claims.wordXY 0x8 x y 0x3) = .instr (.xorVxVy x y) ∧
    Sys2Proof.Claims.writesReg (exec (.xorVxVy x y) s) s x ((readV x s).toNat ^^^ (readV y s).toNat)

/-- R107: `ADD Vx, Vy` leaves the sum modulo 256 in `V[x]` and the carry in VF, the flag last. -/
def Obligations.AddRegistersSetsCarryLast : Prop :=
  ∀ (x y : RegIdx) (s : State),
    decode (Sys2Proof.Claims.wordXY 0x8 x y 0x4) = .instr (.addVxVy x y) ∧
    Sys2Proof.Claims.writesRegAndFlag (exec (.addVxVy x y) s) s x
      (((readV x s).toNat + (readV y s).toNat) % 256)
      (if (readV x s).toNat + (readV y s).toNat > 255 then 1 else 0)

/-- R108, R110: `SUB` and `SUBN` leave the difference modulo 256 in `V[x]` and in VF whether the minuend
was strictly above the subtrahend, the flag last. -/
def Obligations.SubtractsSetStrictNoBorrowLast : Prop :=
  ∀ (x y : RegIdx) (s : State),
    decode (Sys2Proof.Claims.wordXY 0x8 x y 0x5) = .instr (.subVxVy x y) ∧
    Sys2Proof.Claims.writesRegAndFlag (exec (.subVxVy x y) s) s x
      (if (readV x s).toNat < (readV y s).toNat then (readV x s).toNat + 256 - (readV y s).toNat
       else (readV x s).toNat - (readV y s).toNat)
      (if (readV x s).toNat > (readV y s).toNat then 1 else 0) ∧
    decode (Sys2Proof.Claims.wordXY 0x8 x y 0x7) = .instr (.subnVxVy x y) ∧
    Sys2Proof.Claims.writesRegAndFlag (exec (.subnVxVy x y) s) s x
      (if (readV y s).toNat < (readV x s).toNat then (readV y s).toNat + 256 - (readV x s).toNat
       else (readV y s).toNat - (readV x s).toNat)
      (if (readV y s).toNat > (readV x s).toNat then 1 else 0)

/-- R109, R111: the shifts move `V[x]` (not `V[y]`, which is ignored) by one bit and leave the bit
shifted out in VF, the flag last. -/
def Obligations.ShiftsSetShiftedOutBitLast : Prop :=
  ∀ (x y : RegIdx) (s : State),
    decode (Sys2Proof.Claims.wordXY 0x8 x y 0x6) = .instr (.shrVx x y) ∧
    Sys2Proof.Claims.writesRegAndFlag (exec (.shrVx x y) s) s x
      ((readV x s).toNat / 2) ((readV x s).toNat % 2) ∧
    decode (Sys2Proof.Claims.wordXY 0x8 x y 0xE) = .instr (.shlVx x y) ∧
    Sys2Proof.Claims.writesRegAndFlag (exec (.shlVx x y) s) s x
      ((readV x s).toNat * 2 % 256) ((readV x s).toNat / 128)

/-- R112: `RND` leaves `rand and kk` in `V[x]`, `rand` being the operand of the cycle, or a free byte
when the cycle has none, in which case the next free draw has another index. -/
def Obligations.RandomIsMasked : Prop :=
  ∀ (x : RegIdx) (kk : Byte) (s : State),
    decode (Sys2Proof.Claims.wordXK 0xC x kk) = .instr (.rndVxKk x kk) ∧
    (∀ rand, s.rand = some rand →
      Sys2Proof.Claims.writesReg (exec (.rndVxKk x kk) s) s x (rand &&& kk).toNat) ∧
    (s.rand = none → ∃ t, exec (.rndVxKk x kk) s = .next t ∧
      t = { s with v := t.v, pc := s.pc + 2, draws := s.draws + 1 } ∧
      ∀ j, readV j t = if j = x then Config.randByte s.draws &&& kk else readV j s)

/-- The random operand reaches no instruction but `RND`: any other answers the same, operand apart. -/
def Obligations.RandomByteReachesOnlyRnd : Prop :=
  ∀ (i : Instr) (s t : State) (rand : Option Byte), (∀ x kk, i ≠ .rndVxKk x kk) →
    exec i s = .next t → exec i { s with rand := rand } = .next { t with rand := rand }

/-! ## Address register and memory (42_index_memory.md) -/

/-- R121 to R123: the three instructions that write `I` write it and nothing else but the program
counter: `nnn`; the sum modulo 65536; `FONT_BASE + 5 * (V[x] mod 16)`. -/
def Obligations.IndexRegisterWrites : Prop :=
  ∀ (x : RegIdx) (nnn : Addr) (s : State),
    decode (Sys2Proof.Claims.wordA 0xA nnn) = .instr (.ldI nnn) ∧
    (∃ t, exec (.ldI nnn) s = .next t ∧ t = { s with i := t.i, pc := s.pc + 2 } ∧
      t.i.toNat = nnn.toNat) ∧
    decode (Sys2Proof.Claims.wordXK 0xF x 0x1E) = .instr (.addIVx x) ∧
    (∃ t, exec (.addIVx x) s = .next t ∧ t = { s with i := t.i, pc := s.pc + 2 } ∧
      t.i.toNat = (s.i.toNat + (readV x s).toNat) % 65536) ∧
    decode (Sys2Proof.Claims.wordXK 0xF x 0x29) = .instr (.ldFVx x) ∧
    (∃ t, exec (.ldFVx x) s = .next t ∧ t = { s with i := t.i, pc := s.pc + 2 } ∧
      t.i.toNat = s.cfg.fontBase.val + 5 * ((readV x s).toNat % 16))

/-- R124: with all three addresses storable, `LD B` stores hundreds, tens and ones at `I`, `I + 1`,
`I + 2` and changes no other byte and nothing else but the program counter; it raises
`WRITE_PROTECT_FAULT` when `I < 0x200` and `ADDRESS_FAULT` when `I > 0xFFD`. Memory is in its canonical
form, which every step keeps (`EveryStepKeepsInv`). -/
def Obligations.BcdStoresThreeDigits : Prop :=
  ∀ (x : RegIdx) (s : State),
    decode (Sys2Proof.Claims.wordXK 0xF x 0x33) = .instr (.ldBVx x) ∧
    (s.i.toNat < 0x200 → Sys2Proof.Claims.faults (exec (.ldBVx x) s) s .writeProtectFault) ∧
    (0xFFD < s.i.toNat → Sys2Proof.Claims.faults (exec (.ldBVx x) s) s .addressFault) ∧
    (0x200 ≤ s.i.toNat → s.i.toNat ≤ 0xFFD → Memory.wf s.cfg s.mem = true →
      ∃ t, exec (.ldBVx x) s = .next t ∧ t = { s with mem := t.mem, pc := s.pc + 2 } ∧
        (memAt (memBase s) t).toNat = (readV x s).toNat / 100 ∧
        (memAt (memBase s + 1) t).toNat = (readV x s).toNat / 10 % 10 ∧
        (memAt (memBase s + 2) t).toNat = (readV x s).toNat % 10 ∧
        ∀ a, (a < memBase s ∨ memBase s + 2 < a) → memAt a t = memAt a s)

/-- R125: with every address storable, `LD [I], Vx` stores `V[0]` to `V[x]` at `I` to `I + x` and
changes no other byte and nothing else but the program counter (`I` included); it raises
`WRITE_PROTECT_FAULT` when `I < 0x200` and `ADDRESS_FAULT` when `I + x > 0xFFF`. -/
def Obligations.BlockStoreWritesRegisters : Prop :=
  ∀ (x : RegIdx) (s : State),
    decode (Sys2Proof.Claims.wordXK 0xF x 0x55) = .instr (.ldMemVx x) ∧
    (s.i.toNat < 0x200 → Sys2Proof.Claims.faults (exec (.ldMemVx x) s) s .writeProtectFault) ∧
    (0xFFF < s.i.toNat + x.val → Sys2Proof.Claims.faults (exec (.ldMemVx x) s) s .addressFault) ∧
    (0x200 ≤ s.i.toNat → s.i.toNat + x.val ≤ 0xFFF → Memory.wf s.cfg s.mem = true →
      ∃ t, exec (.ldMemVx x) s = .next t ∧ t = { s with mem := t.mem, pc := s.pc + 2 } ∧
        (∀ j : RegIdx, j ≤ x → memAt (memBase s + j.val) t = readV j s) ∧
        ∀ a, (a < memBase s ∨ memBase s + x.val < a) → memAt a t = memAt a s)

/-- R126: with every address readable, `LD Vx, [I]` loads `V[0]` to `V[x]` from `I` to `I + x`, leaves
the registers above `V[x]`, `I` and memory, and changes nothing else but the program counter; it raises
`ADDRESS_FAULT` when `I + x > 0xFFF`. -/
def Obligations.BlockLoadReadsRegisters : Prop :=
  ∀ (x : RegIdx) (s : State),
    decode (Sys2Proof.Claims.wordXK 0xF x 0x65) = .instr (.ldVxMem x) ∧
    (0xFFF < s.i.toNat + x.val → Sys2Proof.Claims.faults (exec (.ldVxMem x) s) s .addressFault) ∧
    (s.i.toNat + x.val ≤ 0xFFF →
      ∃ t, exec (.ldVxMem x) s = .next t ∧ t = { s with v := t.v, pc := s.pc + 2 } ∧
        ∀ j : RegIdx, readV j t = if j ≤ x then memAt (s.i.toNat + j.val) s else readV j s)

/-- Storing registers and then loading as many gives the same registers back, in every state whose
memory is canonical and whose `I` allows the store. -/
def Obligations.BlockStoreThenLoadRestores : Prop :=
  ∀ (x : RegIdx) (s t u : State), Memory.wf s.cfg s.mem = true → 0x200 ≤ s.i.toNat →
    s.i.toNat + x.val ≤ 0xFFF → exec (.ldMemVx x) s = .next t →
    (∃ w, exec (.ldVxMem x) { t with v := u.v } = .next w ∧
      ∀ j : RegIdx, readV j w = if j ≤ x then readV j s else readV j u)

/-- R53: a store is seen by the very next fetch: when `LD [I], Vx` stores over the two bytes at
`PC + 2`, the next fetch reads the stored registers, the one at the lower address as the high byte. -/
def Obligations.StoreIsSeenByNextFetch : Prop :=
  ∀ (x j : RegIdx) (s t : State), Memory.wf s.cfg s.mem = true → 0x200 ≤ s.i.toNat →
    s.i.toNat + x.val ≤ 0xFFF → j.val + 1 ≤ x.val → s.pc.toNat + 2 = s.i.toNat + j.val →
    exec (.ldMemVx x) s = .next t →
    fetch t = some (wordOfBytes (readV j s) (readV (j + 1) s))

/-! ## Display (43_display.md) -/

/-- R143: `CLS` turns every cell OFF, emits one `Redraw` where the parameter lets it, leaves VF, and
changes nothing else but the program counter. -/
def Obligations.ClearScreen : Prop :=
  decode 0x00E0 = .instr .cls ∧
  ∀ s : State, ∃ t, exec .cls s = .next t ∧
    t = { s with pix := t.pix, events := t.events, pc := s.pc + 2 } ∧
    (∀ px py, pixAt px py t.pix = false) ∧
    t.events = s.events ++ if s.cfg.emitRedrawEvents then [.redraw] else []

/-- R144, R145: `DRW` inverts exactly the cells the sprite's 1 bits address, each coordinate reduced by
itself, sets VF to whether one of them was ON before, emits its events in order, leaves the other
registers, `I` and memory, and changes nothing else but the program counter; it raises `ADDRESS_FAULT`
when it has a row and the last one lies above 0xFFF. -/
def Obligations.DrawXorsSpriteAndReportsCollision : Prop :=
  ∀ (x y : RegIdx) (n : Fin 16) (s : State),
    decode (Sys2Proof.Claims.wordXY 0xD x y n.val) = .instr (.drw x y n) ∧
    (n.val ≠ 0 → s.i.toNat + n.val - 1 > 0xFFF →
      Sys2Proof.Claims.faults (exec (.drw x y n) s) s .addressFault) ∧
    ((n.val = 0 ∨ s.i.toNat + n.val - 1 ≤ 0xFFF) →
      ∃ t, exec (.drw x y n) s = .next t ∧
        t = { s with v := t.v, pix := t.pix, events := t.events, pc := s.pc + 2 } ∧
        (∀ px py, Sys2Proof.Claims.covers s x y n px py →
          pixAt px py t.pix = !pixAt px py s.pix) ∧
        (∀ px py, ¬Sys2Proof.Claims.covers s x y n px py →
          pixAt px py t.pix = pixAt px py s.pix) ∧
        ((∃ px py, Sys2Proof.Claims.covers s x y n px py ∧ pixAt px py s.pix = true) →
          readV 0xF t = 1) ∧
        ((¬∃ px py, Sys2Proof.Claims.covers s x y n px py ∧ pixAt px py s.pix = true) →
          readV 0xF t = 0) ∧
        (∀ j, j ≠ 0xF → readV j t = readV j s) ∧
        t.events = s.events ++ Sys2Proof.Claims.drawEvents s x y n)

/-- Drawing the same sprite twice at the same place, with coordinate registers that are not VF,
restores the buffer, and VF says whether the sprite addresses a cell that was OFF at first. -/
def Obligations.DrawingTwiceRestores : Prop :=
  ∀ (x y : RegIdx) (n : Fin 16) (s t u : State), x ≠ 0xF → y ≠ 0xF →
    (n.val = 0 ∨ s.i.toNat + n.val - 1 ≤ 0xFFF) →
    exec (.drw x y n) s = .next t → exec (.drw x y n) t = .next u →
    u.pix = s.pix ∧
    ((∃ px py, Sys2Proof.Claims.covers s x y n px py ∧ pixAt px py s.pix = false) →
      readV 0xF u = 1) ∧
    ((¬∃ px py, Sys2Proof.Claims.covers s x y n px py ∧ pixAt px py s.pix = false) →
      readV 0xF u = 0)

/-! ## Timers and keypad (44_timers_keypad.md) -/

/-- R160 to R162: the three timer transfers move one byte and change nothing else but the program
counter. -/
def Obligations.TimerTransfers : Prop :=
  ∀ (x : RegIdx) (s : State),
    decode (Sys2Proof.Claims.wordXK 0xF x 0x07) = .instr (.ldVxDt x) ∧
    Sys2Proof.Claims.writesReg (exec (.ldVxDt x) s) s x s.dt.toNat ∧
    decode (Sys2Proof.Claims.wordXK 0xF x 0x15) = .instr (.ldDtVx x) ∧
    exec (.ldDtVx x) s = .next { s with dt := readV x s, pc := s.pc + 2 } ∧
    decode (Sys2Proof.Claims.wordXK 0xF x 0x18) = .instr (.ldStVx x) ∧
    exec (.ldStVx x) s = .next { s with st := readV x s, pc := s.pc + 2 }

/-- R163, R164, R170: `SKP` and `SKNP` test the level of the key whose number is the low nibble of
`V[x]`, add 2, and 2 more when it is held or is not held; they change nothing else. -/
def Obligations.KeySkips : Prop :=
  ∀ (x k : RegIdx) (s : State), (readV x s).toNat % 16 = k.val →
    decode (Sys2Proof.Claims.wordXK 0xE x 0x9E) = .instr (.skpVx x) ∧
    Sys2Proof.Claims.skipsWhen (exec (.skpVx x) s) s (s.key[k.val] = true) ∧
    decode (Sys2Proof.Claims.wordXK 0xE x 0xA1) = .instr (.sknpVx x) ∧
    Sys2Proof.Claims.skipsWhen (exec (.sknpVx x) s) s (s.key[k.val] = false)

/-- R165: `LD Vx, K` records `x` in `WT`, enters `WAITING_FOR_INPUT` and advances the program counter by
2; `V[x]` and everything else keep their values. -/
def Obligations.KeyWaitEntersWaiting : Prop :=
  ∀ (x : RegIdx) (s : State),
    decode (Sys2Proof.Claims.wordXK 0xF x 0x0A) = .instr (.ldVxK x) ∧
    exec (.ldVxK x) s = .next { s with wt := x, rs := .waitingForInput, pc := s.pc + 2 }

/-- The key wait as a whole (44_timers_keypad.md R165, R167): after `LD Vx, K`, however many cycles come
first, whatever their random operands, the `press_key(k)` that follows writes `k` to `V[x]` and the
engine runs again at the instruction after the wait. -/
def Obligations.KeyWaitEndsWithPress : Prop :=
  ∀ (x : RegIdx) (k : KeyIdx) (rands : List Byte) (s t : State), exec (.ldVxK x) s = .next t →
    ∃ u, Host.Core.run Sys2Proof.core (rands.length + 1)
        { t with commands := rands.map .cycle ++ [.pressKey k] } = .next u ∧
      u.rs = .running ∧ u.pc = s.pc + 2 ∧ u.key[k.val] = true ∧
      ∀ j : RegIdx, (readV j u).toNat = if j = x then k.val else (readV j s).toNat

/-- R166: `tick_timers` takes one from each timer that is above 0 while the engine runs, and changes no
state in any other run state. -/
def Obligations.TickCountsDownWhileRunning : Prop :=
  ∀ (s : State) (cs : List Command), s.commands = .tickTimers :: cs →
    ∃ t, step s = .next t ∧
      t = { s with dt := t.dt, st := t.st, commands := cs, response := none, events := [] } ∧
      (s.rs = .running → t.dt.toNat = s.dt.toNat - 1 ∧ t.st.toNat = s.st.toNat - 1) ∧
      (s.rs ≠ .running → t.dt = s.dt ∧ t.st = s.st)

/-- R167, R168: `press_key` holds the key, and during a wait also writes its number to `V[WT]` and
resumes; `release_key` releases it; in every run state, and nothing else. -/
def Obligations.KeyCommands : Prop :=
  ∀ (s : State) (cs : List Command) (k : KeyIdx),
    (s.commands = .pressKey k :: cs →
      ∃ t, step s = .next t ∧
        t =
          { s with key := t.key, v := t.v, rs := t.rs, commands := cs, response := none, events := [] } ∧
        (∀ j : KeyIdx, t.key[j.val] = if j = k then true else s.key[j.val]) ∧
        (s.rs = .waitingForInput → t.rs = .running ∧
          ∀ j : RegIdx, (readV j t).toNat = if j = s.wt then k.val else (readV j s).toNat) ∧
        (s.rs ≠ .waitingForInput → t.rs = s.rs ∧ t.v = s.v)) ∧
    (s.commands = .releaseKey k :: cs →
      ∃ t, step s = .next t ∧
        t = { s with key := t.key, commands := cs, response := none, events := [] } ∧
        ∀ j : KeyIdx, t.key[j.val] = if j = k then false else s.key[j.val])

/-! ## Initialisation, ROM load, observation -/

/-- R210, R25: `init`, from any state, leaves every element at its reset value and the font at
`FONT_BASE`, with no response and no event. That the parameters and the environment's further commands
stay is the model's own choice, not the rule's (log entry 16). -/
def Obligations.InitResetsEverything : Prop :=
  ∀ (s : State) (cs : List Command), s.commands = .init :: cs →
    ∃ t, step s = .next t ∧ t.cfg = s.cfg ∧ t.commands = cs ∧ t.response = none ∧ t.events = [] ∧
      (∀ j, readV j t = 0) ∧ t.i = 0 ∧ t.pc = 0x0200 ∧
      (∀ j : Fin 16, t.stack[j.val] = 0) ∧ t.sp = 0 ∧
      (∀ (d : Fin 16) (r : Fin 5),
        memAt (s.cfg.fontBase.val + 5 * d.val + r.val) t = s.cfg.fontGlyphs[d.val][r.val]) ∧
      (∀ a, (a < s.cfg.fontBase.val ∨ s.cfg.fontBase.val + 80 ≤ a) → memAt a t = 0) ∧
      (∀ px py, pixAt px py t.pix = false) ∧ t.dt = 0 ∧ t.st = 0 ∧
      (∀ k : Fin 16, t.key[k.val] = false) ∧ t.rs = .running ∧ t.wt = 0

/-- R212, R213: `load_rom` of at most 3584 bytes copies them to 0x200 and up and responds `Ok`; of more
it responds `RomTooLarge`; nothing else changes, in any run state. (`NullRom` cannot occur at
transaction level.) -/
def Obligations.LoadRomCopiesOrRefuses : Prop :=
  ∀ (s : State) (cs : List Command) (bytes : List Byte), s.commands = .loadRom bytes :: cs →
    (bytes.length > 3584 →
      step s = .next { s with commands := cs, response := some .romTooLarge, events := [] }) ∧
    (bytes.length ≤ 3584 → Memory.wf s.cfg s.mem = true →
      ∃ t, step s = .next t ∧
        t = { s with mem := t.mem, commands := cs, response := some .ok, events := [] } ∧
        (∀ (j : Nat) (h : j < bytes.length), memAt (0x200 + j) t = bytes[j]) ∧
        ∀ a, (a < 0x200 ∨ 0x200 + bytes.length ≤ a) → memAt a t = memAt a s)

/-- R26, R141: the two accessors return `RS` and `Pix` in every run state and change no state. -/
def Obligations.AccessorsArePure : Prop :=
  ∀ (s : State) (cs : List Command),
    (s.commands = .getRunState :: cs →
      step s = .next { s with commands := cs, response := some (.runState s.rs), events := [] }) ∧
    (s.commands = .getScreen :: cs →
      ∃ shown, step s =
          .next { s with commands := cs, response := some (.screen shown), events := [] } ∧
        ∀ px py, pixAt px py shown = pixAt px py s.pix)

/-- R215: after `init` alone, whatever the font and its place, the first cycle, whatever its random
operand, fetches `0x0000`, which is `SYS`: `INVALID_OPCODE` under the policy `invalid`, a step to 0x202
under `nop`. -/
def Obligations.RunningWithoutRom : Prop :=
  ∀ (cfg : Config) (s : State) (rand : Option Byte) (cs : List Command),
    s = { State.initial cfg with commands := s.commands } → Sys2Proof.Claims.cycleNext s rand cs →
    fetch s = some 0 ∧
    ∃ t, step s = .next t ∧
      (cfg.sysPolicy = .invalid → t.rs = .terminal .invalidOpcode ∧ t.pc = 0x200) ∧
      (cfg.sysPolicy = .nop → t.rs = .running ∧ t.pc = 0x202)

/-! ## The whole machine -/

/-- R4: every command is a total function: the step always answers a next state. -/
def Obligations.EveryStepAnswersNext : Prop := ∀ s : State, ∃ t, step s = .next t

/-- R183: faults are precise. When an instruction raises a fault, the state after it equals the state
before it in every element except `RS`, and no event is emitted; and so it is for the cycle as a whole,
whichever fault ended it, fetch and decode included. -/
def Obligations.FaultsChangeOnlyRunState : Prop :=
  (∀ (i : Instr) (s t : State) (kind : FaultKind), s.rs = .running → exec i s = .next t →
    t.rs = .terminal kind → t = { s with rs := .terminal kind }) ∧
  ∀ (s t : State) (rand : Option Byte) (cs : List Command) (kind : FaultKind),
    Sys2Proof.Claims.cycleNext s rand cs → s.rs = .running → step s = .next t →
    t.rs = .terminal kind →
    t = Sys2Proof.Claims.responds
      { Sys2Proof.Claims.inCycle s rand cs with rs := .terminal kind } (.fail kind)

/-- R180: the complete transition table of `RS`. A `cycle` outside `RUNNING` keeps it; in `RUNNING` a
`cycle` that raises a fault makes it that kind, `LD Vx, K` makes it `WAITING_FOR_INPUT`, and any other
instruction that raises none keeps it; and `RS` is a terminal kind exactly when the response is that
failure. -/
def Obligations.RunStateTransitions : Prop :=
  ∀ s t : State, step s = .next t →
    (∀ cs, s.commands = .init :: cs → t.rs = .running) ∧
    (∀ k cs, s.commands = .pressKey k :: cs →
      t.rs = if s.rs = .waitingForInput then .running else s.rs) ∧
    (∀ bytes cs, s.commands = .loadRom bytes :: cs → t.rs = s.rs) ∧
    (∀ cs, s.commands = .tickTimers :: cs → t.rs = s.rs) ∧
    (∀ k cs, s.commands = .releaseKey k :: cs → t.rs = s.rs) ∧
    (∀ cs, s.commands = .getRunState :: cs → t.rs = s.rs) ∧
    (∀ cs, s.commands = .getScreen :: cs → t.rs = s.rs) ∧
    (∀ rand cs, Sys2Proof.Claims.cycleNext s rand cs →
      (s.rs ≠ .running → t.rs = s.rs) ∧
      (s.rs = .running →
        (∀ kind, Sys2Proof.Claims.cycleFault s = some kind → t.rs = .terminal kind) ∧
        (Sys2Proof.Claims.cycleFault s = none →
          ((∃ x, decode (BitVec.ofNat 16 (Sys2Proof.Claims.wordAtPc s)) = .instr (.ldVxK x)) →
            t.rs = .waitingForInput) ∧
          ((¬∃ x, decode (BitVec.ofNat 16 (Sys2Proof.Claims.wordAtPc s)) = .instr (.ldVxK x)) →
            t.rs = .running))) ∧
      (∀ kind, t.rs = .terminal kind ↔ t.response = some (.fail kind))) ∧
    ((∀ kind, s.rs ≠ .terminal kind) → ∀ kind, t.rs = .terminal kind →
      kind ≠ .unsupportedOpcode ∧ s.rs = .running ∧ ∃ rand cs, Sys2Proof.Claims.cycleNext s rand cs)

/-- R184: in a terminal state no command but `init` changes anything, except that the key commands
update `Key` and `load_rom` copies bytes; `cycle` responds the same failure, the accessors return `RS`
and the frozen screen. -/
def Obligations.TerminalStatesAreFrozen : Prop :=
  ∀ (s t : State) (kind : FaultKind), s.rs = .terminal kind → step s = .next t →
    (∀ cs, s.commands ≠ .init :: cs) →
    t =
      { s with
        key := t.key
        mem := t.mem
        commands := s.commands.tail
        response := t.response
        events := []
        rand := t.rand } ∧
    ((∀ k cs, s.commands ≠ .pressKey k :: cs ∧ s.commands ≠ .releaseKey k :: cs) →
      t.key = s.key) ∧
    ((∀ bytes cs, s.commands ≠ .loadRom bytes :: cs) → t.mem = s.mem) ∧
    (∀ rand cs, Sys2Proof.Claims.cycleNext s rand cs → t.response = some (.fail kind)) ∧
    (∀ cs, s.commands = .getRunState :: cs → t.response = some (.runState (.terminal kind))) ∧
    (∀ cs, s.commands = .getScreen :: cs → t.response = some (.screen s.pix))

/-- R15: the program counter after every instruction and after every cycle. After an instruction (the
program counter is one a word can be fetched from): its table's value, `CALL` pushing the advanced one,
and the old value when the instruction faults. After a `cycle`: the old value in a run state other than
`RUNNING` and when any fault is raised (`PC` above 0xFFE and an invalid word among them); otherwise the
table's value for the instruction the word at `PC` decodes to, `CALL` pushing the advanced one. -/
def Obligations.ProgramCounterPolicy : Prop :=
  (∀ (i : Instr) (s t : State), s.rs = .running → s.pc.toNat ≤ 0xFFE → exec i s = .next t →
    ((∃ kind, t.rs = .terminal kind) → t.pc = s.pc) ∧
    ((∀ kind, t.rs ≠ .terminal kind) → t.pc.toNat = Sys2Proof.Claims.nextPc i s ∧
      ∀ nnn, i = .call nnn → ∀ j : Fin 16, j.val = s.sp.val → t.stack[j.val] = s.pc + 2)) ∧
  ∀ (s t : State) (rand : Option Byte) (cs : List Command),
    Sys2Proof.Claims.cycleNext s rand cs → step s = .next t →
    (s.rs ≠ .running → t.pc = s.pc) ∧
    (s.rs = .running →
      (∀ kind, Sys2Proof.Claims.cycleFault s = some kind → t.pc = s.pc) ∧
      (Sys2Proof.Claims.cycleFault s = none →
        ∃ i, decode (BitVec.ofNat 16 (Sys2Proof.Claims.wordAtPc s)) = .instr i ∧
          t.pc.toNat = Sys2Proof.Claims.nextPc i s ∧
          ∀ nnn, i = .call nnn → ∀ j : Fin 16, j.val = s.sp.val → t.stack[j.val] = s.pc + 2))

/-- R12 and the register frame of every instruction: a general register changes only if the instruction
may write it; so VF changes only under the six instructions that write it as a flag, or as a
destination. -/
def Obligations.RegistersChangeOnlyAsDestinations : Prop :=
  ∀ (i : Instr) (s t : State), exec i s = .next t →
    ∀ j : RegIdx, ¬Sys2Proof.Claims.mayWriteReg i j → readV j t = readV j s

/-- R13, R17, R19, R20, R21, R23: who may write what. Each special register, the stack, the display, the
timers, the keypad and the wait target are changed by no instruction but those the spec names for them;
no instruction changes the keypad, the parameters or the environment's commands. -/
def Obligations.ComponentsChangeOnlyByTheirInstructions : Prop :=
  ∀ (i : Instr) (s t : State), exec i s = .next t →
    ((∀ nnn, i ≠ .ldI nnn) → (∀ x, i ≠ .addIVx x) → (∀ x, i ≠ .ldFVx x) → t.i = s.i) ∧
    ((∀ nnn, i ≠ .call nnn) → t.stack = s.stack) ∧
    ((∀ nnn, i ≠ .call nnn) → i ≠ .ret → t.sp = s.sp) ∧
    (i ≠ .cls → (∀ x y n, i ≠ .drw x y n) → t.pix = s.pix ∧ t.events = s.events) ∧
    ((∀ x, i ≠ .ldDtVx x) → t.dt = s.dt) ∧ ((∀ x, i ≠ .ldStVx x) → t.st = s.st) ∧
    ((∀ x, i ≠ .ldVxK x) → t.wt = s.wt) ∧ t.key = s.key ∧ t.cfg = s.cfg ∧ t.commands = s.commands

/-- R43, R56: an instruction changes a byte of memory only if it is a store instruction, the byte is one
of those it stores from `I` up, and its address is 0x200 or above and at most 0xFFF. -/
def Obligations.StoresReachOnlyTheirBytes : Prop :=
  ∀ (i : Instr) (s t : State) (a : Nat), Memory.wf s.cfg s.mem = true → exec i s = .next t →
    memAt a t ≠ memAt a s →
    0x200 ≤ a ∧ a ≤ 0xFFF ∧ memBase s ≤ a ∧ a < memBase s + Sys2Proof.Claims.storedLength i

/-- Every step, whichever command it serves, keeps the invariant: canonical memory, the reserved region
as `init` left it, the bounds of the program counter and of the stack slots (R16), and
`UNSUPPORTED_OPCODE` never entered (R197). -/
def Obligations.EveryStepKeepsInv : Prop :=
  ∀ s t : State, s.Inv → step s = .next t → t.Inv

/-- The invariant holds after `init`, under the default parameters and under all others. -/
def Obligations.InvHoldsAfterInit : Prop :=
  State.reset.Inv ∧ ∀ cfg : Config, (State.initial cfg).Inv

/-- R201's consequence: over any number of steps, with any commands between them, no byte below 0x200
changes. -/
def Obligations.ReservedRegionIsConstant : Prop :=
  ∀ (m : Nat) (s t : State), s.Inv → Host.Core.run Sys2Proof.core m s = .next t →
    ∀ a, a < 0x200 → memAt a t = memAt a s

/-- Two canonical memories that read the same everywhere are the same data. -/
def Obligations.EqualContentsAreEqualMemory : Prop :=
  ∀ (cfg : Config) (m m' : Memory), Memory.wf cfg m = true → Memory.wf cfg m' = true →
    (∀ a, Memory.read cfg m a = Memory.read cfg m' a) → m = m'

/-- R142: events and responses carry no state: what the last command answered and emitted influences no
later step. -/
def Obligations.OutputsInfluenceNothing : Prop :=
  ∀ (s : State) (r : Option Response) (e : List Event),
    step { s with response := r, events := e } = step s

/-- R142: the two event parameters change the events and no state transition: the machines with and
without them make the same steps, events and parameters apart. -/
def Obligations.EventParametersChangeOnlyEvents : Prop :=
  ∀ (s t : State) (p q : Bool), step s = .next t →
    ∃ e, step { s with cfg := { s.cfg with emitPixelEvents := p, emitRedrawEvents := q } } =
      .next { t with cfg := { s.cfg with emitPixelEvents := p, emitRedrawEvents := q }, events := e }

/-- No instruction reads the sound timer, and none but `LD ST, Vx` writes it (10_state.md R20). -/
def Obligations.SoundTimerIsUnreadable : Prop :=
  ∀ (i : Instr) (s t : State) (b : Byte), (∀ x, i ≠ .ldStVx x) → exec i s = .next t →
    exec i { s with st := b } = .next { t with st := b }
end

