-- ==== Sys2Proof/Laws/Decode.lean ====
section
/-! SUPPORT. The fields of an encoded word, and the word made of its fields: what a proof about the
decoder cites instead of unfolding bit extraction. -/

namespace Sys2Proof

@[simp] theorem nibble_toFin (x : Fin 16) : (nibble x).toFin = x := rfl

@[simp] theorem nibble_of_toFin (b : BitVec 4) : nibble b.toFin = b := rfl

theorem nibble_toNat (x : Fin 16) : (nibble x).toNat = x.val := rfl

/-! ## Encoded words as numbers -/

theorem encodeA_eq_ofNat (c : BitVec 4) (a : Addr) :
    encodeA c a = BitVec.ofNat 16 (c.toNat * 0x1000 + a.toNat) := by
  apply BitVec.eq_of_toNat_eq
  have hc := c.isLt
  have ha := a.isLt
  simp only [encodeA, BitVec.toNat_append, BitVec.toNat_ofNat]
  rw [Nat.shiftLeft_eq, ← Nat.mul_comm (2 ^ 12), ← Nat.two_pow_add_eq_or_of_lt ha]
  omega

theorem encodeXK_eq_ofNat (c : BitVec 4) (x : RegIdx) (kk : Byte) :
    encodeXK c x kk = BitVec.ofNat 16 (c.toNat * 0x1000 + x.val * 0x100 + kk.toNat) := by
  apply BitVec.eq_of_toNat_eq
  have hc := c.isLt
  have hx := x.isLt
  have hk := kk.isLt
  simp only [encodeXK, BitVec.toNat_append, BitVec.toNat_ofNat, nibble_toNat]
  rw [Nat.shiftLeft_eq, Nat.shiftLeft_eq, ← Nat.mul_comm (2 ^ 8), ← Nat.mul_comm (2 ^ 4),
    ← Nat.two_pow_add_eq_or_of_lt hk, ← Nat.two_pow_add_eq_or_of_lt hx]
  omega

theorem encodeXY_eq_ofNat (c : BitVec 4) (x y : RegIdx) (m : BitVec 4) :
    encodeXY c x y m =
      BitVec.ofNat 16 (c.toNat * 0x1000 + x.val * 0x100 + y.val * 0x10 + m.toNat) := by
  apply BitVec.eq_of_toNat_eq
  have hc := c.isLt
  have hx := x.isLt
  have hy := y.isLt
  have hm := m.isLt
  simp only [encodeXY, BitVec.toNat_append, BitVec.toNat_ofNat, nibble_toNat]
  rw [Nat.shiftLeft_eq, Nat.shiftLeft_eq, Nat.shiftLeft_eq, ← Nat.mul_comm (2 ^ 4),
    ← Nat.mul_comm (2 ^ 4), ← Nat.mul_comm (2 ^ 4), ← Nat.two_pow_add_eq_or_of_lt hm,
    ← Nat.two_pow_add_eq_or_of_lt hy, ← Nat.two_pow_add_eq_or_of_lt hx]
  omega

/-! ## Fields as numbers -/

theorem fieldClass_toNat (w : Word) : (fieldClass w).toNat = w.toNat / 0x1000 := by
  have := w.isLt
  simp only [fieldClass, BitVec.extractLsb'_toNat, Nat.shiftRight_eq_div_pow]
  omega

theorem fieldX_val (w : Word) : (fieldX w).val = w.toNat / 0x100 % 0x10 := by
  simp [fieldX, Nat.shiftRight_eq_div_pow]

theorem fieldY_val (w : Word) : (fieldY w).val = w.toNat / 0x10 % 0x10 := by
  simp [fieldY, Nat.shiftRight_eq_div_pow]

theorem fieldN_toNat (w : Word) : (fieldN w).toNat = w.toNat % 0x10 := by
  simp [fieldN]

theorem fieldKk_toNat (w : Word) : (fieldKk w).toNat = w.toNat % 0x100 := by
  simp [fieldKk]

theorem fieldNnn_toNat (w : Word) : (fieldNnn w).toNat = w.toNat % 0x1000 := by
  simp [fieldNnn]

/-! ## Fields of encoded words -/

@[simp] theorem fieldClass_encodeA (c : BitVec 4) (a : Addr) : fieldClass (encodeA c a) = c := by
  have hc := c.isLt
  have ha := a.isLt
  apply BitVec.eq_of_toNat_eq
  rw [fieldClass_toNat, encodeA_eq_ofNat, BitVec.toNat_ofNat]
  omega

@[simp] theorem fieldNnn_encodeA (c : BitVec 4) (a : Addr) : fieldNnn (encodeA c a) = a := by
  have hc := c.isLt
  have ha := a.isLt
  apply BitVec.eq_of_toNat_eq
  rw [fieldNnn_toNat, encodeA_eq_ofNat, BitVec.toNat_ofNat]
  omega

section
variable (c m : BitVec 4) (x y : RegIdx) (kk : Byte)

@[simp] theorem fieldClass_encodeXK : fieldClass (encodeXK c x kk) = c := by
  have hc := c.isLt
  have hk := kk.isLt
  apply BitVec.eq_of_toNat_eq
  rw [fieldClass_toNat, encodeXK_eq_ofNat, BitVec.toNat_ofNat]
  omega

@[simp] theorem fieldX_encodeXK : fieldX (encodeXK c x kk) = x := by
  have hc := c.isLt
  have hk := kk.isLt
  apply Fin.ext
  rw [fieldX_val, encodeXK_eq_ofNat, BitVec.toNat_ofNat]
  omega

@[simp] theorem fieldKk_encodeXK : fieldKk (encodeXK c x kk) = kk := by
  have hc := c.isLt
  have hk := kk.isLt
  apply BitVec.eq_of_toNat_eq
  rw [fieldKk_toNat, encodeXK_eq_ofNat, BitVec.toNat_ofNat]
  omega

@[simp] theorem fieldClass_encodeXY : fieldClass (encodeXY c x y m) = c := by
  have hc := c.isLt
  have hm := m.isLt
  apply BitVec.eq_of_toNat_eq
  rw [fieldClass_toNat, encodeXY_eq_ofNat, BitVec.toNat_ofNat]
  omega

@[simp] theorem fieldX_encodeXY : fieldX (encodeXY c x y m) = x := by
  have hc := c.isLt
  have hm := m.isLt
  apply Fin.ext
  rw [fieldX_val, encodeXY_eq_ofNat, BitVec.toNat_ofNat]
  omega

@[simp] theorem fieldY_encodeXY : fieldY (encodeXY c x y m) = y := by
  have hc := c.isLt
  have hm := m.isLt
  apply Fin.ext
  rw [fieldY_val, encodeXY_eq_ofNat, BitVec.toNat_ofNat]
  omega

@[simp] theorem fieldN_encodeXY : fieldN (encodeXY c x y m) = m := by
  have hc := c.isLt
  have hm := m.isLt
  apply BitVec.eq_of_toNat_eq
  rw [fieldN_toNat, encodeXY_eq_ofNat, BitVec.toNat_ofNat]
  omega

end

/-! ## The word made of its fields -/

theorem encodeA_fields (w : Word) : encodeA (fieldClass w) (fieldNnn w) = w := by
  have := w.isLt
  apply BitVec.eq_of_toNat_eq
  rw [encodeA_eq_ofNat, BitVec.toNat_ofNat, fieldClass_toNat, fieldNnn_toNat]
  omega

theorem encodeXK_fields (w : Word) : encodeXK (fieldClass w) (fieldX w) (fieldKk w) = w := by
  have := w.isLt
  apply BitVec.eq_of_toNat_eq
  rw [encodeXK_eq_ofNat, BitVec.toNat_ofNat, fieldClass_toNat, fieldX_val, fieldKk_toNat]
  omega

theorem encodeXY_fields (w : Word) :
    encodeXY (fieldClass w) (fieldX w) (fieldY w) (fieldN w) = w := by
  have := w.isLt
  apply BitVec.eq_of_toNat_eq
  rw [encodeXY_eq_ofNat, BitVec.toNat_ofNat, fieldClass_toNat, fieldX_val, fieldY_val, fieldN_toNat]
  omega

/-! ## Cases of the decoder -/

/-- A class that is none of 0 to E is F. -/
theorem class_last (c : BitVec 4) (h0 : c = 0x0#4 → False) (h1 : c = 0x1#4 → False)
    (h2 : c = 0x2#4 → False) (h3 : c = 0x3#4 → False) (h4 : c = 0x4#4 → False)
    (h5 : c = 0x5#4 → False) (h6 : c = 0x6#4 → False) (h7 : c = 0x7#4 → False)
    (h8 : c = 0x8#4 → False) (h9 : c = 0x9#4 → False) (hA : c = 0xA#4 → False)
    (hB : c = 0xB#4 → False) (hC : c = 0xC#4 → False) (hD : c = 0xD#4 → False)
    (hE : c = 0xE#4 → False) : c = 0xF#4 := by
  revert c
  decide

/-- A class 0 word that is neither `CLS` nor `RET` is `SYS`. -/
theorem decode_encodeA_zero {nnn : Addr} (h : nnn ≠ 0x0E0) (h' : nnn ≠ 0x0EE) :
    decode (encodeA 0x0#4 nnn) = .instr (.sys nnn) := by
  have inj : ∀ a : Addr, encodeA 0x0#4 nnn = encodeA 0x0#4 a → nnn = a := fun a he => by
    simpa using congrArg fieldNnn he
  have h1 : encodeA 0x0#4 nnn ≠ 0x00E0#16 := fun he => h (inj _ (he.trans (by decide)))
  have h2 : encodeA 0x0#4 nnn ≠ 0x00EE#16 := fun he => h' (inj _ (he.trans (by decide)))
  simp [decode, h1, h2]

/-! ## Bytes of a word -/

/-- The two stored bytes of a word make the word again. -/
theorem wordOfBytes_bytesOfWord (w : Word) :
    wordOfBytes (w.extractLsb' 8 8) (w.extractLsb' 0 8) = w := by
  unfold wordOfBytes
  ext i hi
  simp only [BitVec.getElem_append, BitVec.getElem_extractLsb']
  split <;> rw [← BitVec.getLsbD_eq_getElem hi] <;> congr 1 <;> omega

theorem wordOfBytes_toNat (hi lo : Byte) :
    (wordOfBytes hi lo).toNat = hi.toNat * 0x100 + lo.toNat := by
  have hl := lo.isLt
  simp only [wordOfBytes, BitVec.toNat_append]
  rw [Nat.shiftLeft_eq, ← Nat.mul_comm (2 ^ 8), ← Nat.two_pow_add_eq_or_of_lt hl]

/-- A table word decodes as the word itself. -/
theorem decodeTableWord_eq_some {nbits w : Nat} {i : Instr} :
    decodeTableWord nbits w = some i ↔ decode (tableWord nbits w) = .instr i := by
  have h : decodeBytes (bytesOfWord (tableWord nbits w)) = decode (tableWord nbits w) :=
    congrArg decode (wordOfBytes_bytesOfWord _)
  unfold decodeTableWord
  rw [h]
  split <;> simp_all

end Sys2Proof
end

