-- ==== Sys2Proof/Laws/State.lean ====
section
/-! SUPPORT. One lemma per field of the state per update: what each shared update leaves and what it
sets. Later proofs cite these and do not unfold a record update. -/

namespace Sys2Proof.Machine


/-! ## `writeV` -/

@[simp] theorem writeV_v (j : RegIdx) (b : Byte) (s : State) :
    (writeV j b s).v = s.v.set j.val b := rfl
@[simp] theorem writeV_i (j : RegIdx) (b : Byte) (s : State) :
    (writeV j b s).i = s.i := rfl
@[simp] theorem writeV_pc (j : RegIdx) (b : Byte) (s : State) :
    (writeV j b s).pc = s.pc := rfl
@[simp] theorem writeV_stack (j : RegIdx) (b : Byte) (s : State) :
    (writeV j b s).stack = s.stack := rfl
@[simp] theorem writeV_sp (j : RegIdx) (b : Byte) (s : State) :
    (writeV j b s).sp = s.sp := rfl
@[simp] theorem writeV_mem (j : RegIdx) (b : Byte) (s : State) :
    (writeV j b s).mem = s.mem := rfl
@[simp] theorem writeV_pix (j : RegIdx) (b : Byte) (s : State) :
    (writeV j b s).pix = s.pix := rfl
@[simp] theorem writeV_dt (j : RegIdx) (b : Byte) (s : State) :
    (writeV j b s).dt = s.dt := rfl
@[simp] theorem writeV_st (j : RegIdx) (b : Byte) (s : State) :
    (writeV j b s).st = s.st := rfl
@[simp] theorem writeV_key (j : RegIdx) (b : Byte) (s : State) :
    (writeV j b s).key = s.key := rfl
@[simp] theorem writeV_rs (j : RegIdx) (b : Byte) (s : State) :
    (writeV j b s).rs = s.rs := rfl
@[simp] theorem writeV_wt (j : RegIdx) (b : Byte) (s : State) :
    (writeV j b s).wt = s.wt := rfl
@[simp] theorem writeV_cfg (j : RegIdx) (b : Byte) (s : State) :
    (writeV j b s).cfg = s.cfg := rfl
@[simp] theorem writeV_commands (j : RegIdx) (b : Byte) (s : State) :
    (writeV j b s).commands = s.commands := rfl
@[simp] theorem writeV_rand (j : RegIdx) (b : Byte) (s : State) :
    (writeV j b s).rand = s.rand := rfl
@[simp] theorem writeV_draws (j : RegIdx) (b : Byte) (s : State) :
    (writeV j b s).draws = s.draws := rfl
@[simp] theorem writeV_response (j : RegIdx) (b : Byte) (s : State) :
    (writeV j b s).response = s.response := rfl
@[simp] theorem writeV_events (j : RegIdx) (b : Byte) (s : State) :
    (writeV j b s).events = s.events := rfl

/-! ## `writeResultThenFlag` -/

@[simp] theorem writeResultThenFlag_v (x : RegIdx) (r : Byte) (f : Bool) (s : State) :
    (writeResultThenFlag x r f s).v = (s.v.set x.val r).set 15 (flagByte f) := rfl
@[simp] theorem writeResultThenFlag_i (x : RegIdx) (r : Byte) (f : Bool) (s : State) :
    (writeResultThenFlag x r f s).i = s.i := rfl
@[simp] theorem writeResultThenFlag_pc (x : RegIdx) (r : Byte) (f : Bool) (s : State) :
    (writeResultThenFlag x r f s).pc = s.pc := rfl
@[simp] theorem writeResultThenFlag_stack (x : RegIdx) (r : Byte) (f : Bool) (s : State) :
    (writeResultThenFlag x r f s).stack = s.stack := rfl
@[simp] theorem writeResultThenFlag_sp (x : RegIdx) (r : Byte) (f : Bool) (s : State) :
    (writeResultThenFlag x r f s).sp = s.sp := rfl
@[simp] theorem writeResultThenFlag_mem (x : RegIdx) (r : Byte) (f : Bool) (s : State) :
    (writeResultThenFlag x r f s).mem = s.mem := rfl
@[simp] theorem writeResultThenFlag_pix (x : RegIdx) (r : Byte) (f : Bool) (s : State) :
    (writeResultThenFlag x r f s).pix = s.pix := rfl
@[simp] theorem writeResultThenFlag_dt (x : RegIdx) (r : Byte) (f : Bool) (s : State) :
    (writeResultThenFlag x r f s).dt = s.dt := rfl
@[simp] theorem writeResultThenFlag_st (x : RegIdx) (r : Byte) (f : Bool) (s : State) :
    (writeResultThenFlag x r f s).st = s.st := rfl
@[simp] theorem writeResultThenFlag_key (x : RegIdx) (r : Byte) (f : Bool) (s : State) :
    (writeResultThenFlag x r f s).key = s.key := rfl
@[simp] theorem writeResultThenFlag_rs (x : RegIdx) (r : Byte) (f : Bool) (s : State) :
    (writeResultThenFlag x r f s).rs = s.rs := rfl
@[simp] theorem writeResultThenFlag_wt (x : RegIdx) (r : Byte) (f : Bool) (s : State) :
    (writeResultThenFlag x r f s).wt = s.wt := rfl
@[simp] theorem writeResultThenFlag_cfg (x : RegIdx) (r : Byte) (f : Bool) (s : State) :
    (writeResultThenFlag x r f s).cfg = s.cfg := rfl
@[simp] theorem writeResultThenFlag_commands (x : RegIdx) (r : Byte) (f : Bool) (s : State) :
    (writeResultThenFlag x r f s).commands = s.commands := rfl
@[simp] theorem writeResultThenFlag_rand (x : RegIdx) (r : Byte) (f : Bool) (s : State) :
    (writeResultThenFlag x r f s).rand = s.rand := rfl
@[simp] theorem writeResultThenFlag_draws (x : RegIdx) (r : Byte) (f : Bool) (s : State) :
    (writeResultThenFlag x r f s).draws = s.draws := rfl
@[simp] theorem writeResultThenFlag_response (x : RegIdx) (r : Byte) (f : Bool) (s : State) :
    (writeResultThenFlag x r f s).response = s.response := rfl
@[simp] theorem writeResultThenFlag_events (x : RegIdx) (r : Byte) (f : Bool) (s : State) :
    (writeResultThenFlag x r f s).events = s.events := rfl

/-! ## `advance` -/

@[simp] theorem advance_v (s : State) :
    (advance s).v = s.v := rfl
@[simp] theorem advance_i (s : State) :
    (advance s).i = s.i := rfl
@[simp] theorem advance_pc (s : State) :
    (advance s).pc = s.pc + 2 := rfl
@[simp] theorem advance_stack (s : State) :
    (advance s).stack = s.stack := rfl
@[simp] theorem advance_sp (s : State) :
    (advance s).sp = s.sp := rfl
@[simp] theorem advance_mem (s : State) :
    (advance s).mem = s.mem := rfl
@[simp] theorem advance_pix (s : State) :
    (advance s).pix = s.pix := rfl
@[simp] theorem advance_dt (s : State) :
    (advance s).dt = s.dt := rfl
@[simp] theorem advance_st (s : State) :
    (advance s).st = s.st := rfl
@[simp] theorem advance_key (s : State) :
    (advance s).key = s.key := rfl
@[simp] theorem advance_rs (s : State) :
    (advance s).rs = s.rs := rfl
@[simp] theorem advance_wt (s : State) :
    (advance s).wt = s.wt := rfl
@[simp] theorem advance_cfg (s : State) :
    (advance s).cfg = s.cfg := rfl
@[simp] theorem advance_commands (s : State) :
    (advance s).commands = s.commands := rfl
@[simp] theorem advance_rand (s : State) :
    (advance s).rand = s.rand := rfl
@[simp] theorem advance_draws (s : State) :
    (advance s).draws = s.draws := rfl
@[simp] theorem advance_response (s : State) :
    (advance s).response = s.response := rfl
@[simp] theorem advance_events (s : State) :
    (advance s).events = s.events := rfl

/-! ## `jumpTo` -/

@[simp] theorem jumpTo_v (w : Word) (s : State) :
    (jumpTo w s).v = s.v := rfl
@[simp] theorem jumpTo_i (w : Word) (s : State) :
    (jumpTo w s).i = s.i := rfl
@[simp] theorem jumpTo_pc (w : Word) (s : State) :
    (jumpTo w s).pc = w := rfl
@[simp] theorem jumpTo_stack (w : Word) (s : State) :
    (jumpTo w s).stack = s.stack := rfl
@[simp] theorem jumpTo_sp (w : Word) (s : State) :
    (jumpTo w s).sp = s.sp := rfl
@[simp] theorem jumpTo_mem (w : Word) (s : State) :
    (jumpTo w s).mem = s.mem := rfl
@[simp] theorem jumpTo_pix (w : Word) (s : State) :
    (jumpTo w s).pix = s.pix := rfl
@[simp] theorem jumpTo_dt (w : Word) (s : State) :
    (jumpTo w s).dt = s.dt := rfl
@[simp] theorem jumpTo_st (w : Word) (s : State) :
    (jumpTo w s).st = s.st := rfl
@[simp] theorem jumpTo_key (w : Word) (s : State) :
    (jumpTo w s).key = s.key := rfl
@[simp] theorem jumpTo_rs (w : Word) (s : State) :
    (jumpTo w s).rs = s.rs := rfl
@[simp] theorem jumpTo_wt (w : Word) (s : State) :
    (jumpTo w s).wt = s.wt := rfl
@[simp] theorem jumpTo_cfg (w : Word) (s : State) :
    (jumpTo w s).cfg = s.cfg := rfl
@[simp] theorem jumpTo_commands (w : Word) (s : State) :
    (jumpTo w s).commands = s.commands := rfl
@[simp] theorem jumpTo_rand (w : Word) (s : State) :
    (jumpTo w s).rand = s.rand := rfl
@[simp] theorem jumpTo_draws (w : Word) (s : State) :
    (jumpTo w s).draws = s.draws := rfl
@[simp] theorem jumpTo_response (w : Word) (s : State) :
    (jumpTo w s).response = s.response := rfl
@[simp] theorem jumpTo_events (w : Word) (s : State) :
    (jumpTo w s).events = s.events := rfl

/-! ## `storeBytes` -/

@[simp] theorem storeBytes_v (a : Nat) (l : List Byte) (s : State) :
    (storeBytes a l s).v = s.v := rfl
@[simp] theorem storeBytes_i (a : Nat) (l : List Byte) (s : State) :
    (storeBytes a l s).i = s.i := rfl
@[simp] theorem storeBytes_pc (a : Nat) (l : List Byte) (s : State) :
    (storeBytes a l s).pc = s.pc := rfl
@[simp] theorem storeBytes_stack (a : Nat) (l : List Byte) (s : State) :
    (storeBytes a l s).stack = s.stack := rfl
@[simp] theorem storeBytes_sp (a : Nat) (l : List Byte) (s : State) :
    (storeBytes a l s).sp = s.sp := rfl
@[simp] theorem storeBytes_mem (a : Nat) (l : List Byte) (s : State) :
    (storeBytes a l s).mem = Memory.writeBytes s.cfg s.mem a l := rfl
@[simp] theorem storeBytes_pix (a : Nat) (l : List Byte) (s : State) :
    (storeBytes a l s).pix = s.pix := rfl
@[simp] theorem storeBytes_dt (a : Nat) (l : List Byte) (s : State) :
    (storeBytes a l s).dt = s.dt := rfl
@[simp] theorem storeBytes_st (a : Nat) (l : List Byte) (s : State) :
    (storeBytes a l s).st = s.st := rfl
@[simp] theorem storeBytes_key (a : Nat) (l : List Byte) (s : State) :
    (storeBytes a l s).key = s.key := rfl
@[simp] theorem storeBytes_rs (a : Nat) (l : List Byte) (s : State) :
    (storeBytes a l s).rs = s.rs := rfl
@[simp] theorem storeBytes_wt (a : Nat) (l : List Byte) (s : State) :
    (storeBytes a l s).wt = s.wt := rfl
@[simp] theorem storeBytes_cfg (a : Nat) (l : List Byte) (s : State) :
    (storeBytes a l s).cfg = s.cfg := rfl
@[simp] theorem storeBytes_commands (a : Nat) (l : List Byte) (s : State) :
    (storeBytes a l s).commands = s.commands := rfl
@[simp] theorem storeBytes_rand (a : Nat) (l : List Byte) (s : State) :
    (storeBytes a l s).rand = s.rand := rfl
@[simp] theorem storeBytes_draws (a : Nat) (l : List Byte) (s : State) :
    (storeBytes a l s).draws = s.draws := rfl
@[simp] theorem storeBytes_response (a : Nat) (l : List Byte) (s : State) :
    (storeBytes a l s).response = s.response := rfl
@[simp] theorem storeBytes_events (a : Nat) (l : List Byte) (s : State) :
    (storeBytes a l s).events = s.events := rfl

/-! ## `setKey` -/

@[simp] theorem setKey_v (k : KeyIdx) (b : Bool) (s : State) :
    (setKey k b s).v = s.v := rfl
@[simp] theorem setKey_i (k : KeyIdx) (b : Bool) (s : State) :
    (setKey k b s).i = s.i := rfl
@[simp] theorem setKey_pc (k : KeyIdx) (b : Bool) (s : State) :
    (setKey k b s).pc = s.pc := rfl
@[simp] theorem setKey_stack (k : KeyIdx) (b : Bool) (s : State) :
    (setKey k b s).stack = s.stack := rfl
@[simp] theorem setKey_sp (k : KeyIdx) (b : Bool) (s : State) :
    (setKey k b s).sp = s.sp := rfl
@[simp] theorem setKey_mem (k : KeyIdx) (b : Bool) (s : State) :
    (setKey k b s).mem = s.mem := rfl
@[simp] theorem setKey_pix (k : KeyIdx) (b : Bool) (s : State) :
    (setKey k b s).pix = s.pix := rfl
@[simp] theorem setKey_dt (k : KeyIdx) (b : Bool) (s : State) :
    (setKey k b s).dt = s.dt := rfl
@[simp] theorem setKey_st (k : KeyIdx) (b : Bool) (s : State) :
    (setKey k b s).st = s.st := rfl
@[simp] theorem setKey_key (k : KeyIdx) (b : Bool) (s : State) :
    (setKey k b s).key = s.key.set k.val b := rfl
@[simp] theorem setKey_rs (k : KeyIdx) (b : Bool) (s : State) :
    (setKey k b s).rs = s.rs := rfl
@[simp] theorem setKey_wt (k : KeyIdx) (b : Bool) (s : State) :
    (setKey k b s).wt = s.wt := rfl
@[simp] theorem setKey_cfg (k : KeyIdx) (b : Bool) (s : State) :
    (setKey k b s).cfg = s.cfg := rfl
@[simp] theorem setKey_commands (k : KeyIdx) (b : Bool) (s : State) :
    (setKey k b s).commands = s.commands := rfl
@[simp] theorem setKey_rand (k : KeyIdx) (b : Bool) (s : State) :
    (setKey k b s).rand = s.rand := rfl
@[simp] theorem setKey_draws (k : KeyIdx) (b : Bool) (s : State) :
    (setKey k b s).draws = s.draws := rfl
@[simp] theorem setKey_response (k : KeyIdx) (b : Bool) (s : State) :
    (setKey k b s).response = s.response := rfl
@[simp] theorem setKey_events (k : KeyIdx) (b : Bool) (s : State) :
    (setKey k b s).events = s.events := rfl

/-! ## `beginCommand` -/

@[simp] theorem beginCommand_v (s : State) :
    (beginCommand s).v = s.v := rfl
@[simp] theorem beginCommand_i (s : State) :
    (beginCommand s).i = s.i := rfl
@[simp] theorem beginCommand_pc (s : State) :
    (beginCommand s).pc = s.pc := rfl
@[simp] theorem beginCommand_stack (s : State) :
    (beginCommand s).stack = s.stack := rfl
@[simp] theorem beginCommand_sp (s : State) :
    (beginCommand s).sp = s.sp := rfl
@[simp] theorem beginCommand_mem (s : State) :
    (beginCommand s).mem = s.mem := rfl
@[simp] theorem beginCommand_pix (s : State) :
    (beginCommand s).pix = s.pix := rfl
@[simp] theorem beginCommand_dt (s : State) :
    (beginCommand s).dt = s.dt := rfl
@[simp] theorem beginCommand_st (s : State) :
    (beginCommand s).st = s.st := rfl
@[simp] theorem beginCommand_key (s : State) :
    (beginCommand s).key = s.key := rfl
@[simp] theorem beginCommand_rs (s : State) :
    (beginCommand s).rs = s.rs := rfl
@[simp] theorem beginCommand_wt (s : State) :
    (beginCommand s).wt = s.wt := rfl
@[simp] theorem beginCommand_cfg (s : State) :
    (beginCommand s).cfg = s.cfg := rfl
@[simp] theorem beginCommand_commands (s : State) :
    (beginCommand s).commands = s.commands := rfl
@[simp] theorem beginCommand_rand (s : State) :
    (beginCommand s).rand = s.rand := rfl
@[simp] theorem beginCommand_draws (s : State) :
    (beginCommand s).draws = s.draws := rfl
@[simp] theorem beginCommand_response (s : State) :
    (beginCommand s).response = none := rfl
@[simp] theorem beginCommand_events (s : State) :
    (beginCommand s).events = [] := rfl

/-! ## `beginCycle` -/

@[simp] theorem beginCycle_v (r : Option Byte) (s : State) :
    (beginCycle r s).v = s.v := rfl
@[simp] theorem beginCycle_i (r : Option Byte) (s : State) :
    (beginCycle r s).i = s.i := rfl
@[simp] theorem beginCycle_pc (r : Option Byte) (s : State) :
    (beginCycle r s).pc = s.pc := rfl
@[simp] theorem beginCycle_stack (r : Option Byte) (s : State) :
    (beginCycle r s).stack = s.stack := rfl
@[simp] theorem beginCycle_sp (r : Option Byte) (s : State) :
    (beginCycle r s).sp = s.sp := rfl
@[simp] theorem beginCycle_mem (r : Option Byte) (s : State) :
    (beginCycle r s).mem = s.mem := rfl
@[simp] theorem beginCycle_pix (r : Option Byte) (s : State) :
    (beginCycle r s).pix = s.pix := rfl
@[simp] theorem beginCycle_dt (r : Option Byte) (s : State) :
    (beginCycle r s).dt = s.dt := rfl
@[simp] theorem beginCycle_st (r : Option Byte) (s : State) :
    (beginCycle r s).st = s.st := rfl
@[simp] theorem beginCycle_key (r : Option Byte) (s : State) :
    (beginCycle r s).key = s.key := rfl
@[simp] theorem beginCycle_rs (r : Option Byte) (s : State) :
    (beginCycle r s).rs = s.rs := rfl
@[simp] theorem beginCycle_wt (r : Option Byte) (s : State) :
    (beginCycle r s).wt = s.wt := rfl
@[simp] theorem beginCycle_cfg (r : Option Byte) (s : State) :
    (beginCycle r s).cfg = s.cfg := rfl
@[simp] theorem beginCycle_commands (r : Option Byte) (s : State) :
    (beginCycle r s).commands = s.commands := rfl
@[simp] theorem beginCycle_rand (r : Option Byte) (s : State) :
    (beginCycle r s).rand = r := rfl
@[simp] theorem beginCycle_draws (r : Option Byte) (s : State) :
    (beginCycle r s).draws = s.draws := rfl
@[simp] theorem beginCycle_response (r : Option Byte) (s : State) :
    (beginCycle r s).response = none := rfl
@[simp] theorem beginCycle_events (r : Option Byte) (s : State) :
    (beginCycle r s).events = [] := rfl

/-! ## `endCycle` -/

@[simp] theorem endCycle_v (s : State) :
    (endCycle s).v = s.v := rfl
@[simp] theorem endCycle_i (s : State) :
    (endCycle s).i = s.i := rfl
@[simp] theorem endCycle_pc (s : State) :
    (endCycle s).pc = s.pc := rfl
@[simp] theorem endCycle_stack (s : State) :
    (endCycle s).stack = s.stack := rfl
@[simp] theorem endCycle_sp (s : State) :
    (endCycle s).sp = s.sp := rfl
@[simp] theorem endCycle_mem (s : State) :
    (endCycle s).mem = s.mem := rfl
@[simp] theorem endCycle_pix (s : State) :
    (endCycle s).pix = s.pix := rfl
@[simp] theorem endCycle_dt (s : State) :
    (endCycle s).dt = s.dt := rfl
@[simp] theorem endCycle_st (s : State) :
    (endCycle s).st = s.st := rfl
@[simp] theorem endCycle_key (s : State) :
    (endCycle s).key = s.key := rfl
@[simp] theorem endCycle_rs (s : State) :
    (endCycle s).rs = s.rs := rfl
@[simp] theorem endCycle_wt (s : State) :
    (endCycle s).wt = s.wt := rfl
@[simp] theorem endCycle_cfg (s : State) :
    (endCycle s).cfg = s.cfg := rfl
@[simp] theorem endCycle_commands (s : State) :
    (endCycle s).commands = s.commands := rfl
@[simp] theorem endCycle_rand (s : State) :
    (endCycle s).rand = none := rfl
@[simp] theorem endCycle_draws (s : State) :
    (endCycle s).draws = s.draws := rfl
@[simp] theorem endCycle_response (s : State) :
    (endCycle s).response = some (cycleResponse s.rs) := rfl
@[simp] theorem endCycle_events (s : State) :
    (endCycle s).events = s.events := rfl

/-! ## `skipIf` -/

@[simp] theorem skipIf_v (c : Bool) (s : State) :
    (skipIf c s).v = s.v := by
  unfold skipIf; split <;> rfl
@[simp] theorem skipIf_i (c : Bool) (s : State) :
    (skipIf c s).i = s.i := by
  unfold skipIf; split <;> rfl
@[simp] theorem skipIf_pc (c : Bool) (s : State) :
    (skipIf c s).pc = if c then s.pc + 4 else s.pc + 2 := by
  unfold skipIf; split <;> simp [BitVec.add_assoc]
@[simp] theorem skipIf_stack (c : Bool) (s : State) :
    (skipIf c s).stack = s.stack := by
  unfold skipIf; split <;> rfl
@[simp] theorem skipIf_sp (c : Bool) (s : State) :
    (skipIf c s).sp = s.sp := by
  unfold skipIf; split <;> rfl
@[simp] theorem skipIf_mem (c : Bool) (s : State) :
    (skipIf c s).mem = s.mem := by
  unfold skipIf; split <;> rfl
@[simp] theorem skipIf_pix (c : Bool) (s : State) :
    (skipIf c s).pix = s.pix := by
  unfold skipIf; split <;> rfl
@[simp] theorem skipIf_dt (c : Bool) (s : State) :
    (skipIf c s).dt = s.dt := by
  unfold skipIf; split <;> rfl
@[simp] theorem skipIf_st (c : Bool) (s : State) :
    (skipIf c s).st = s.st := by
  unfold skipIf; split <;> rfl
@[simp] theorem skipIf_key (c : Bool) (s : State) :
    (skipIf c s).key = s.key := by
  unfold skipIf; split <;> rfl
@[simp] theorem skipIf_rs (c : Bool) (s : State) :
    (skipIf c s).rs = s.rs := by
  unfold skipIf; split <;> rfl
@[simp] theorem skipIf_wt (c : Bool) (s : State) :
    (skipIf c s).wt = s.wt := by
  unfold skipIf; split <;> rfl
@[simp] theorem skipIf_cfg (c : Bool) (s : State) :
    (skipIf c s).cfg = s.cfg := by
  unfold skipIf; split <;> rfl
@[simp] theorem skipIf_commands (c : Bool) (s : State) :
    (skipIf c s).commands = s.commands := by
  unfold skipIf; split <;> rfl
@[simp] theorem skipIf_rand (c : Bool) (s : State) :
    (skipIf c s).rand = s.rand := by
  unfold skipIf; split <;> rfl
@[simp] theorem skipIf_draws (c : Bool) (s : State) :
    (skipIf c s).draws = s.draws := by
  unfold skipIf; split <;> rfl
@[simp] theorem skipIf_response (c : Bool) (s : State) :
    (skipIf c s).response = s.response := by
  unfold skipIf; split <;> rfl
@[simp] theorem skipIf_events (c : Bool) (s : State) :
    (skipIf c s).events = s.events := by
  unfold skipIf; split <;> rfl

/-! ## `emitRedraw` -/

@[simp] theorem emitRedraw_v (s : State) :
    (emitRedraw s).v = s.v := by
  unfold emitRedraw; split <;> rfl
@[simp] theorem emitRedraw_i (s : State) :
    (emitRedraw s).i = s.i := by
  unfold emitRedraw; split <;> rfl
@[simp] theorem emitRedraw_pc (s : State) :
    (emitRedraw s).pc = s.pc := by
  unfold emitRedraw; split <;> rfl
@[simp] theorem emitRedraw_stack (s : State) :
    (emitRedraw s).stack = s.stack := by
  unfold emitRedraw; split <;> rfl
@[simp] theorem emitRedraw_sp (s : State) :
    (emitRedraw s).sp = s.sp := by
  unfold emitRedraw; split <;> rfl
@[simp] theorem emitRedraw_mem (s : State) :
    (emitRedraw s).mem = s.mem := by
  unfold emitRedraw; split <;> rfl
@[simp] theorem emitRedraw_pix (s : State) :
    (emitRedraw s).pix = s.pix := by
  unfold emitRedraw; split <;> rfl
@[simp] theorem emitRedraw_dt (s : State) :
    (emitRedraw s).dt = s.dt := by
  unfold emitRedraw; split <;> rfl
@[simp] theorem emitRedraw_st (s : State) :
    (emitRedraw s).st = s.st := by
  unfold emitRedraw; split <;> rfl
@[simp] theorem emitRedraw_key (s : State) :
    (emitRedraw s).key = s.key := by
  unfold emitRedraw; split <;> rfl
@[simp] theorem emitRedraw_rs (s : State) :
    (emitRedraw s).rs = s.rs := by
  unfold emitRedraw; split <;> rfl
@[simp] theorem emitRedraw_wt (s : State) :
    (emitRedraw s).wt = s.wt := by
  unfold emitRedraw; split <;> rfl
@[simp] theorem emitRedraw_cfg (s : State) :
    (emitRedraw s).cfg = s.cfg := by
  unfold emitRedraw; split <;> rfl
@[simp] theorem emitRedraw_commands (s : State) :
    (emitRedraw s).commands = s.commands := by
  unfold emitRedraw; split <;> rfl
@[simp] theorem emitRedraw_rand (s : State) :
    (emitRedraw s).rand = s.rand := by
  unfold emitRedraw; split <;> rfl
@[simp] theorem emitRedraw_draws (s : State) :
    (emitRedraw s).draws = s.draws := by
  unfold emitRedraw; split <;> rfl
@[simp] theorem emitRedraw_response (s : State) :
    (emitRedraw s).response = s.response := by
  unfold emitRedraw; split <;> rfl
@[simp] theorem emitRedraw_events (s : State) :
    (emitRedraw s).events = if s.cfg.emitRedrawEvents then s.events ++ [.redraw] else s.events := by
  unfold emitRedraw; split <;> rfl

/-! ## `consumeRandom` -/

@[simp] theorem consumeRandom_v (s : State) :
    (consumeRandom s).v = s.v := by
  unfold consumeRandom; split <;> rfl
@[simp] theorem consumeRandom_i (s : State) :
    (consumeRandom s).i = s.i := by
  unfold consumeRandom; split <;> rfl
@[simp] theorem consumeRandom_pc (s : State) :
    (consumeRandom s).pc = s.pc := by
  unfold consumeRandom; split <;> rfl
@[simp] theorem consumeRandom_stack (s : State) :
    (consumeRandom s).stack = s.stack := by
  unfold consumeRandom; split <;> rfl
@[simp] theorem consumeRandom_sp (s : State) :
    (consumeRandom s).sp = s.sp := by
  unfold consumeRandom; split <;> rfl
@[simp] theorem consumeRandom_mem (s : State) :
    (consumeRandom s).mem = s.mem := by
  unfold consumeRandom; split <;> rfl
@[simp] theorem consumeRandom_pix (s : State) :
    (consumeRandom s).pix = s.pix := by
  unfold consumeRandom; split <;> rfl
@[simp] theorem consumeRandom_dt (s : State) :
    (consumeRandom s).dt = s.dt := by
  unfold consumeRandom; split <;> rfl
@[simp] theorem consumeRandom_st (s : State) :
    (consumeRandom s).st = s.st := by
  unfold consumeRandom; split <;> rfl
@[simp] theorem consumeRandom_key (s : State) :
    (consumeRandom s).key = s.key := by
  unfold consumeRandom; split <;> rfl
@[simp] theorem consumeRandom_rs (s : State) :
    (consumeRandom s).rs = s.rs := by
  unfold consumeRandom; split <;> rfl
@[simp] theorem consumeRandom_wt (s : State) :
    (consumeRandom s).wt = s.wt := by
  unfold consumeRandom; split <;> rfl
@[simp] theorem consumeRandom_cfg (s : State) :
    (consumeRandom s).cfg = s.cfg := by
  unfold consumeRandom; split <;> rfl
@[simp] theorem consumeRandom_commands (s : State) :
    (consumeRandom s).commands = s.commands := by
  unfold consumeRandom; split <;> rfl
@[simp] theorem consumeRandom_rand (s : State) :
    (consumeRandom s).rand = s.rand := by
  unfold consumeRandom; split <;> rfl
@[simp] theorem consumeRandom_draws (s : State) :
    (consumeRandom s).draws = if s.rand.isSome then s.draws else s.draws + 1 := by
  unfold consumeRandom; split <;> rfl
@[simp] theorem consumeRandom_response (s : State) :
    (consumeRandom s).response = s.response := by
  unfold consumeRandom; split <;> rfl
@[simp] theorem consumeRandom_events (s : State) :
    (consumeRandom s).events = s.events := by
  unfold consumeRandom; split <;> rfl

/-! ## `tickTimers` -/

@[simp] theorem tickTimers_v (s : State) :
    (tickTimers s).v = s.v := by
  unfold tickTimers; split <;> rfl
@[simp] theorem tickTimers_i (s : State) :
    (tickTimers s).i = s.i := by
  unfold tickTimers; split <;> rfl
@[simp] theorem tickTimers_pc (s : State) :
    (tickTimers s).pc = s.pc := by
  unfold tickTimers; split <;> rfl
@[simp] theorem tickTimers_stack (s : State) :
    (tickTimers s).stack = s.stack := by
  unfold tickTimers; split <;> rfl
@[simp] theorem tickTimers_sp (s : State) :
    (tickTimers s).sp = s.sp := by
  unfold tickTimers; split <;> rfl
@[simp] theorem tickTimers_mem (s : State) :
    (tickTimers s).mem = s.mem := by
  unfold tickTimers; split <;> rfl
@[simp] theorem tickTimers_pix (s : State) :
    (tickTimers s).pix = s.pix := by
  unfold tickTimers; split <;> rfl
@[simp] theorem tickTimers_dt (s : State) :
    (tickTimers s).dt = if s.rs = .running then countDown s.dt else s.dt := by
  unfold tickTimers; split <;> rfl
@[simp] theorem tickTimers_st (s : State) :
    (tickTimers s).st = if s.rs = .running then countDown s.st else s.st := by
  unfold tickTimers; split <;> rfl
@[simp] theorem tickTimers_key (s : State) :
    (tickTimers s).key = s.key := by
  unfold tickTimers; split <;> rfl
@[simp] theorem tickTimers_rs (s : State) :
    (tickTimers s).rs = s.rs := by
  unfold tickTimers; split <;> rfl
@[simp] theorem tickTimers_wt (s : State) :
    (tickTimers s).wt = s.wt := by
  unfold tickTimers; split <;> rfl
@[simp] theorem tickTimers_cfg (s : State) :
    (tickTimers s).cfg = s.cfg := by
  unfold tickTimers; split <;> rfl
@[simp] theorem tickTimers_commands (s : State) :
    (tickTimers s).commands = s.commands := by
  unfold tickTimers; split <;> rfl
@[simp] theorem tickTimers_rand (s : State) :
    (tickTimers s).rand = s.rand := by
  unfold tickTimers; split <;> rfl
@[simp] theorem tickTimers_draws (s : State) :
    (tickTimers s).draws = s.draws := by
  unfold tickTimers; split <;> rfl
@[simp] theorem tickTimers_response (s : State) :
    (tickTimers s).response = s.response := by
  unfold tickTimers; split <;> rfl
@[simp] theorem tickTimers_events (s : State) :
    (tickTimers s).events = s.events := by
  unfold tickTimers; split <;> rfl

end Sys2Proof.Machine
end

