-- ==== Sys2Proof/Laws/Memory.lean ====
section
/-! SUPPORT. Memory: read after write, the canonical form is kept, and equal contents are equal data. -/

namespace Sys2Proof.Machine

/-! ## The canonical form -/

theorem Memory.wfFrom_cons {cfg : Config} {lo : Nat} {c : Host.Cell} {m : Memory} :
    Memory.wfFrom cfg lo (c :: m) = true ↔
      lo ≤ c.1 ∧ c.1 < memSize ∧ c.2 ≠ initByte cfg c.1 ∧ Memory.wfFrom cfg (c.1 + 1) m = true := by
  obtain ⟨b, v⟩ := c
  simp [Memory.wfFrom, and_assoc]

theorem Memory.wfFrom_mono {cfg : Config} {lo lo' : Nat} {m : Memory} (h : lo' ≤ lo)
    (hm : Memory.wfFrom cfg lo m = true) : Memory.wfFrom cfg lo' m = true := by
  cases m with
  | nil => rfl
  | cons c m =>
    rw [Memory.wfFrom_cons] at hm ⊢
    exact ⟨by omega, hm.2⟩

/-- Below its bound a canonical list names no address. -/
theorem Memory.read_of_lt {cfg : Config} {lo a : Nat} {m : Memory} (h : a < lo)
    (hm : Memory.wfFrom cfg lo m = true) : Memory.read cfg m a = initByte cfg a := by
  induction m generalizing lo with
  | nil => rfl
  | cons c m ih =>
    obtain ⟨b, v⟩ := c
    rw [Memory.wfFrom_cons] at hm
    have hb : lo ≤ b := hm.1
    rw [Memory.read, if_neg (by omega)]
    exact ih (by omega) hm.2.2.2

theorem Memory.wfFrom_write {cfg : Config} {lo a : Nat} {v : Byte} {m : Memory} (hlo : lo ≤ a)
    (ha : a < memSize) (hm : Memory.wfFrom cfg lo m = true) :
    Memory.wfFrom cfg lo (Memory.write cfg m a v) = true := by
  induction m generalizing lo with
  | nil =>
    unfold Memory.write
    split
    · rfl
    · exact Memory.wfFrom_cons.2 ⟨hlo, ha, ‹_›, rfl⟩
  | cons c m ih =>
    obtain ⟨b, u⟩ := c
    have hc := Memory.wfFrom_cons.1 hm
    unfold Memory.write
    split
    · split
      · exact hm
      · exact Memory.wfFrom_cons.2
          ⟨hlo, ha, ‹_›, Memory.wfFrom_cons.2 ⟨by simp only; omega, hc.2⟩⟩
    · split
      · subst a
        split
        · exact Memory.wfFrom_mono (by omega) hc.2.2.2
        · exact Memory.wfFrom_cons.2 ⟨hlo, ha, ‹_›, hc.2.2.2⟩
      · exact Memory.wfFrom_cons.2 ⟨hc.1, hc.2.1, hc.2.2.1, ih (by simp only; omega) hc.2.2.2⟩

/-- A write inside the 4096 bytes keeps the canonical form. -/
theorem Memory.wf_write {cfg : Config} {a : Nat} {v : Byte} {m : Memory} (ha : a < memSize)
    (hm : Memory.wf cfg m = true) : Memory.wf cfg (Memory.write cfg m a v) = true :=
  Memory.wfFrom_write (Nat.zero_le a) ha hm

/-- So does a block of writes. -/
theorem Memory.wf_writeBytes {cfg : Config} {a : Nat} {l : List Byte} {m : Memory}
    (ha : a + l.length ≤ memSize) (hm : Memory.wf cfg m = true) :
    Memory.wf cfg (Memory.writeBytes cfg m a l) = true := by
  induction l generalizing a m with
  | nil => exact hm
  | cons v l ih =>
    simp only [List.length_cons] at ha
    exact ih (by omega) (Memory.wf_write (by omega) hm)

/-! ## Read after write -/

theorem Memory.read_write_from {cfg : Config} {lo a b : Nat} {v : Byte} {m : Memory}
    (hm : Memory.wfFrom cfg lo m = true) :
    Memory.read cfg (Memory.write cfg m a v) b = if b = a then v else Memory.read cfg m b := by
  induction m generalizing lo with
  | nil =>
    unfold Memory.write
    split <;> rename_i hv
    · by_cases h : b = a <;> simp [h, Memory.read, hv]
    · simp [Memory.read]
  | cons c m ih =>
    obtain ⟨d, u⟩ := c
    have hc := Memory.wfFrom_cons.1 hm
    unfold Memory.write
    split <;> rename_i had
    · split <;> rename_i hv
      · by_cases h : b = a
        · subst h
          have h1 : b ≠ d := by omega
          simp only [Memory.read, h1, if_false, if_true, hv]
          exact Memory.read_of_lt (by simp only at had ⊢; omega) hc.2.2.2
        · simp [h]
      · by_cases h : b = a <;> simp [h, Memory.read]
    · split <;> rename_i hd
      · subst hd
        split <;> rename_i hv
        · by_cases h : b = a
          · subst h
            simp only [if_true, hv]
            exact Memory.read_of_lt (Nat.lt_succ_self _) hc.2.2.2
          · simp [h, Memory.read]
        · by_cases h : b = a <;> simp [h, Memory.read]
      · by_cases h : b = d
        · subst h
          simp [Memory.read, Ne.symm hd]
        · simp only [Memory.read, h, if_false]
          exact ih hc.2.2.2

/-- A read after a write gives the value written, and every other address reads as before. -/
theorem Memory.read_write {cfg : Config} {a b : Nat} {v : Byte} {m : Memory}
    (hm : Memory.wf cfg m = true) :
    Memory.read cfg (Memory.write cfg m a v) b = if b = a then v else Memory.read cfg m b :=
  Memory.read_write_from hm

/-- A read after a block of writes. -/
theorem Memory.read_writeBytes {cfg : Config} {a b : Nat} {l : List Byte} {m : Memory}
    (ha : a + l.length ≤ memSize) (hm : Memory.wf cfg m = true) :
    Memory.read cfg (Memory.writeBytes cfg m a l) b =
      if h : a ≤ b ∧ b < a + l.length then l[b - a]'(by omega) else Memory.read cfg m b := by
  induction l generalizing a m with
  | nil =>
    rw [dif_neg (by simp only [List.length_nil]; omega)]
    rfl
  | cons v l ih =>
    simp only [List.length_cons] at ha
    rw [Memory.writeBytes, ih (by omega) (Memory.wf_write (by omega) hm), Memory.read_write hm]
    by_cases h1 : a + 1 ≤ b ∧ b < a + 1 + l.length
    · rw [dif_pos h1, dif_pos (by simp only [List.length_cons]; omega)]
      obtain ⟨k, rfl⟩ : ∃ k, b = a + 1 + k := ⟨b - (a + 1), by omega⟩
      simp [show a + 1 + k - a = k + 1 by omega]
    · rw [dif_neg h1]
      by_cases h2 : b = a
      · subst h2
        rw [if_pos rfl, dif_pos (by simp only [List.length_cons]; omega)]
        simp
      · rw [if_neg h2, dif_neg (by simp only [List.length_cons]; omega)]

/-! ## Equal contents are equal data -/

theorem Memory.eq_of_read_from {cfg : Config} {lo : Nat} {m m' : Memory}
    (hm : Memory.wfFrom cfg lo m = true) (hm' : Memory.wfFrom cfg lo m' = true)
    (h : ∀ a, Memory.read cfg m a = Memory.read cfg m' a) : m = m' := by
  induction m generalizing lo m' with
  | nil =>
    cases m' with
    | nil => rfl
    | cons c' m' =>
      exact absurd (by simpa [Memory.read] using (h c'.1).symm) (Memory.wfFrom_cons.1 hm').2.2.1
  | cons c m ih =>
    have hc := Memory.wfFrom_cons.1 hm
    cases m' with
    | nil => exact absurd (by simpa [Memory.read] using h c.1) hc.2.2.1
    | cons c' m' =>
      have hc' := Memory.wfFrom_cons.1 hm'
      obtain ⟨b, v⟩ := c
      obtain ⟨b', v'⟩ := c'
      have hb : b = b' := by
        rcases Nat.lt_trichotomy b b' with hlt | heq | hgt
        · have h1 := h b
          simp only [Memory.read, if_true, show b ≠ b' by omega, if_false] at h1
          rw [Memory.read_of_lt (by simp only; omega) hc'.2.2.2] at h1
          exact absurd h1 hc.2.2.1
        · exact heq
        · have h1 := h b'
          simp only [Memory.read, if_true, show b' ≠ b by omega, if_false] at h1
          rw [Memory.read_of_lt (by simp only; omega) hc.2.2.2] at h1
          exact absurd h1.symm hc'.2.2.1
      subst hb
      have hv : v = v' := by simpa [Memory.read] using h b
      subst hv
      congr 1
      refine ih hc.2.2.2 hc'.2.2.2 fun a => ?_
      by_cases ha : a = b
      · subst ha
        rw [Memory.read_of_lt (Nat.lt_succ_self _) hc.2.2.2,
          Memory.read_of_lt (Nat.lt_succ_self _) hc'.2.2.2]
      · simpa [Memory.read, ha] using h a

/-! ## Which addresses are listed -/

theorem Memory.mem_write_addr {cfg : Config} {a : Nat} {v : Byte} {m : Memory} {c : Host.Cell}
    (hc : c ∈ Memory.write cfg m a v) : c.1 = a ∨ c ∈ m := by
  induction m with
  | nil =>
    unfold Memory.write at hc
    split at hc <;> simp_all
  | cons d m ih =>
    obtain ⟨b, u⟩ := d
    unfold Memory.write at hc
    repeat' split at hc
    · exact .inr hc
    · rcases List.mem_cons.1 hc with rfl | h
      exacts [.inl rfl, .inr h]
    · exact .inr (List.mem_cons_of_mem _ hc)
    · rcases List.mem_cons.1 hc with rfl | h
      exacts [.inl rfl, .inr (List.mem_cons_of_mem _ h)]
    · rcases List.mem_cons.1 hc with rfl | h
      · exact .inr List.mem_cons_self
      · exact (ih h).imp_right (List.mem_cons_of_mem _)

/-- A block of writes at or above `lo` lists no new address below `lo`. -/
theorem Memory.listed_writeBytes {cfg : Config} {lo a : Nat} {l : List Byte} {m : Memory}
    (ha : lo ≤ a) (hm : ∀ c ∈ m, lo ≤ c.1) :
    ∀ c ∈ Memory.writeBytes cfg m a l, lo ≤ c.1 := by
  induction l generalizing a m with
  | nil => exact hm
  | cons v l ih =>
    refine ih (by omega) fun c hc => ?_
    rcases Memory.mem_write_addr hc with h | h
    · omega
    · exact hm c h

/-- An address that is not listed reads as `init` left it. -/
theorem Memory.read_unlisted {cfg : Config} {a : Nat} {m : Memory} (h : ∀ c ∈ m, c.1 ≠ a) :
    Memory.read cfg m a = initByte cfg a := by
  induction m with
  | nil => rfl
  | cons c m ih =>
    obtain ⟨b, v⟩ := c
    rw [Memory.read, if_neg (Ne.symm (h _ List.mem_cons_self))]
    exact ih fun c hc => h c (List.mem_cons_of_mem _ hc)

/-! ## Blocks of reads -/

@[simp] theorem Memory.readBytes_length {cfg : Config} {m : Memory} {a n : Nat} :
    (Memory.readBytes cfg m a n).length = n := by
  induction n generalizing a with
  | zero => rfl
  | succ n ih => simp [Memory.readBytes, ih]

theorem Memory.readBytes_get {cfg : Config} {m : Memory} {a n k : Nat}
    (h : k < (Memory.readBytes cfg m a n).length) :
    (Memory.readBytes cfg m a n)[k] = Memory.read cfg m (a + k) := by
  induction n generalizing a k with
  | zero => simp at h
  | succ n ih =>
    cases k with
    | zero => rfl
    | succ k =>
      simp only [Memory.readBytes, List.getElem_cons_succ]
      rw [ih (by simpa [Memory.readBytes] using h), show a + 1 + k = a + (k + 1) by omega]

end Sys2Proof.Machine
end

