-- ==== Sys2Proof/Laws/Ops.lean ====
section
/-! SUPPORT. One lemma for each shared operation that says what it can do; proofs about instructions
cite these and do not unfold the operation. -/

namespace Sys2Proof.Machine

/-! ## General registers -/

@[simp] theorem readV_writeV (j x : RegIdx) (b : Byte) (s : State) :
    readV j (writeV x b s) = if j = x then b else readV j s := by
  simp only [readV, writeV_v, Vector.getElem_set, Fin.val_inj, eq_comm]

@[simp] theorem readV_advance (j : RegIdx) (s : State) : readV j (advance s) = readV j s := rfl

@[simp] theorem readV_emitRedraw (j : RegIdx) (s : State) : readV j (emitRedraw s) = readV j s := by
  simp [readV]

@[simp] theorem readV_consumeRandom (j : RegIdx) (s : State) :
    readV j (consumeRandom s) = readV j s := by simp [readV]

/-- The flag is the write observed afterward. -/
@[simp] theorem readV_writeResultThenFlag (j x : RegIdx) (r : Byte) (f : Bool) (s : State) :
    readV j (writeResultThenFlag x r f s) =
      if j = 15 then flagByte f else if j = x then r else readV j s := by
  simp [writeResultThenFlag, flagReg]

theorem readV_congr {j : RegIdx} {s t : State} (h : t.v = s.v) : readV j t = readV j s := by
  simp [readV, h]

theorem setRegs_getElem (v : Vector Byte 16) (j : Nat) (l : List Byte) (k : Nat) (hk : k < 16) :
    (setRegs v j l)[k] = if h : j ≤ k ∧ k < j + l.length then l[k - j]'(by omega) else v[k] := by
  induction l generalizing v j with
  | nil =>
    rw [dif_neg (by simp only [List.length_nil]; omega)]
    rfl
  | cons b l ih =>
    rw [setRegs, ih]
    by_cases h1 : j + 1 ≤ k ∧ k < j + 1 + l.length
    · rw [dif_pos h1, dif_pos (by simp only [List.length_cons]; omega)]
      obtain ⟨d, rfl⟩ : ∃ d, k = j + 1 + d := ⟨k - (j + 1), by omega⟩
      simp [show j + 1 + d - j = d + 1 by omega]
    · rw [dif_neg h1]
      by_cases h2 : j = k
      · subst h2
        rw [dif_pos (by simp only [List.length_cons]; omega)]
        simp
      · rw [dif_neg (by simp only [List.length_cons]; omega)]
        simp [h2]

@[simp] theorem lowRegs_length (x : RegIdx) (s : State) : (lowRegs x s).length = x.val + 1 := by
  have := x.isLt
  simp only [lowRegs, List.length_take, Vector.length_toList]
  omega

theorem lowRegs_getElem {x : RegIdx} {s : State} {k : Nat} (h : k < (lowRegs x s).length) :
    (lowRegs x s)[k] = readV ⟨k, by have := lowRegs_length x s; omega⟩ s := by
  simp [lowRegs, readV]

/-! ## The operations with a condition, as one record update -/

theorem skipIf_eq (c : Bool) (s : State) :
    skipIf c s = { s with pc := s.pc + if c then 4 else 2 } := by
  cases c
  · rfl
  · exact congrArg (fun p => { s with pc := p }) (BitVec.add_assoc s.pc 2 2)

theorem emitRedraw_eq (s : State) :
    emitRedraw s =
      { s with events := s.events ++ if s.cfg.emitRedrawEvents then [.redraw] else [] } := by
  unfold emitRedraw
  split <;> simp

theorem consumeRandom_eq (s : State) :
    consumeRandom s = { s with draws := s.draws + if s.rand.isSome then 0 else 1 } := by
  unfold consumeRandom
  split <;> simp

/-! ## Faults -/

@[simp] theorem unlessFault_none (s : State) (body : Result) : unlessFault none s body = body := rfl

@[simp] theorem unlessFault_some (k : FaultKind) (s : State) (body : Result) :
    unlessFault (some k) s body = raise k s := rfl

/-! ## Checks before access -/

/-- Every address of a readable span is below 0x1000. -/
theorem checkSpan_read {a n : Nat} :
    checkSpan checkRead a n = if n = 0 ∨ a + n ≤ 0x1000 then none else some .addressFault := by
  induction n generalizing a with
  | zero => simp [checkSpan]
  | succ n ih =>
    unfold checkSpan checkRead
    by_cases h : a > 0xFFF
    · rw [if_pos h, if_neg (by omega)]
    · rw [if_neg h]
      simp only
      rw [show (checkSpan (fun a => if a > 0xFFF then some FaultKind.addressFault else none) (a + 1) n)
        = checkSpan checkRead (a + 1) n from rfl, ih]
      split <;> split <;> first | rfl | omega

/-- A storable span starts at 0x200 or above and ends below 0x1000. -/
theorem checkSpan_write {a n : Nat} (hn : n ≠ 0) (hs : n ≤ 16) :
    checkSpan checkWrite a n =
      if a < 0x200 then some .writeProtectFault
      else if a + n ≤ 0x1000 then none else some .addressFault := by
  induction n generalizing a with
  | zero => exact absurd rfl hn
  | succ n ih =>
    have hstep : checkSpan checkWrite a (n + 1) =
        match checkWrite a with
        | some k => some k
        | none => checkSpan checkWrite (a + 1) n := rfl
    rw [hstep]
    by_cases h1 : a > 0xFFF
    · rw [if_neg (by omega), if_neg (by omega)]
      simp [checkWrite, h1]
    · by_cases h2 : a < 0x200
      · rw [if_pos h2]
        simp [checkWrite, h1, romBase, h2]
      · have hc : checkWrite a = none := by simp [checkWrite, h1, romBase, h2]
        rw [hc, if_neg h2]
        by_cases h0 : n = 0
        · subst h0
          rw [if_pos (by omega)]
          rfl
        · simp only
          rw [ih h0 (by omega), if_neg (by omega)]
          split <;> split <;> first | rfl | omega

/-! ## Loads and stores -/

@[simp] theorem loadBytes_length {a n : Nat} {s : State} : (loadBytes a n s).length = n :=
  Memory.readBytes_length

theorem loadBytes_getElem {a n k : Nat} {s : State} (h : k < (loadBytes a n s).length) :
    (loadBytes a n s)[k] = memAt (a + k) s := Memory.readBytes_get h

/-- The bytes of a store read as stored, every other byte as before. -/
theorem memAt_storeBytes {a b : Nat} {l : List Byte} {s : State} (ha : a + l.length ≤ 0x1000)
    (hm : Memory.wf s.cfg s.mem = true) :
    memAt b (storeBytes a l s) =
      if h : a ≤ b ∧ b < a + l.length then l[b - a]'(by omega) else memAt b s :=
  Memory.read_writeBytes ha hm

theorem memAt_storeBytes_inside {a k : Nat} {l : List Byte} {s : State} (hk : k < l.length)
    (ha : a + l.length ≤ 0x1000) (hm : Memory.wf s.cfg s.mem = true) :
    memAt (a + k) (storeBytes a l s) = l[k] := by
  rw [memAt_storeBytes ha hm, dif_pos (by omega)]
  simp

theorem memAt_storeBytes_outside {a b : Nat} {l : List Byte} {s : State}
    (hb : b < a ∨ a + l.length ≤ b) (ha : a + l.length ≤ 0x1000)
    (hm : Memory.wf s.cfg s.mem = true) : memAt b (storeBytes a l s) = memAt b s := by
  rw [memAt_storeBytes ha hm, dif_neg (by omega)]

theorem memAt_congr {a : Nat} {s t : State} (hc : t.cfg = s.cfg) (hm : t.mem = s.mem) :
    memAt a t = memAt a s := by simp [memAt, hc, hm]

theorem wf_storeBytes {a : Nat} {l : List Byte} {s : State} (ha : a + l.length ≤ 0x1000)
    (hm : Memory.wf s.cfg s.mem = true) :
    Memory.wf (storeBytes a l s).cfg (storeBytes a l s).mem = true :=
  Memory.wf_writeBytes ha hm

/-! ## Fetch -/

theorem fetch_of_le {s : State} (h : s.pc.toNat ≤ 0xFFE) :
    fetch s = some (wordOfBytes (memAt s.pc.toNat s) (memAt (s.pc.toNat + 1) s)) :=
  if_neg (by omega)

theorem fetch_of_gt {s : State} (h : s.pc.toNat > 0xFFE) : fetch s = none := if_pos h

theorem fetch_congr {s t : State} (hp : t.pc = s.pc) (hc : t.cfg = s.cfg) (hm : t.mem = s.mem) :
    fetch t = fetch s := by simp [fetch, memAt, hp, hc, hm]

/-- A word placed at the program counter is the word the next fetch reads. -/
theorem fetch_placeWord {w : Word} {s : State} (h : s.pc.toNat ≤ 0xFFE)
    (hm : Memory.wf s.cfg s.mem = true) : fetch (placeWord w s) = some w := by
  have hl : (bytesOfWord w).length = 2 := rfl
  have h0 := memAt_storeBytes_inside (k := 0) (l := bytesOfWord w) (by omega)
    (show s.pc.toNat + 2 ≤ 0x1000 by omega) hm
  have h1 := memAt_storeBytes_inside (k := 1) (l := bytesOfWord w) (by omega)
    (show s.pc.toNat + 2 ≤ 0x1000 by omega) hm
  have hf := fetch_of_le (s := placeWord w s) h
  rw [hf]
  exact congrArg some ((congrArg₂ wordOfBytes h0 h1).trans (wordOfBytes_bytesOfWord w))

/-! ## Call stack -/

theorem pushThen_of_room {w : Word} {body : State → State} {s : State} (h : s.sp.val < 16) :
    pushThen w body s =
      .next (body { s with stack := s.stack.set s.sp.val w, sp := ⟨s.sp.val + 1, by omega⟩ }) :=
  dif_pos h

theorem pushThen_of_full {w : Word} {body : State → State} {s : State} (h : s.sp.val = 16) :
    pushThen w body s = raise .stackOverflow s := dif_neg (by omega)

theorem popToPc_of_used {s : State} (h : 0 < s.sp.val) :
    popToPc s =
      .next { s with pc := s.stack[s.sp.val - 1]'(by omega), sp := ⟨s.sp.val - 1, by omega⟩ } :=
  dif_pos h

theorem popToPc_of_empty {s : State} (h : s.sp.val = 0) : popToPc s = raise .stackUnderflow s :=
  dif_neg (by omega)

/-! ## Operands -/

theorem addrWord_toNat (nnn : Addr) : (addrWord nnn).toNat = nnn.toNat := by
  have := nnn.isLt
  simp only [addrWord, BitVec.toNat_setWidth]
  omega

theorem byteWord_toNat (b : Byte) : (byteWord b).toNat = b.toNat := by
  have := b.isLt
  simp only [byteWord, BitVec.toNat_setWidth]
  omega

theorem lowNibble_val (b : Byte) : (lowNibble b).val = b.toNat % 16 := by simp [lowNibble]

theorem glyphAddr_toNat (cfg : Config) (d : Fin 16) :
    (glyphAddr cfg d).toNat = cfg.fontBase.val + 5 * d.val := by
  have := cfg.fontBase.isLt
  have := d.isLt
  simp only [glyphAddr, BitVec.toNat_ofNat]
  omega

theorem keyByte_toNat (k : KeyIdx) : (keyByte k).toNat = k.val := by
  have := k.isLt
  simp only [keyByte, BitVec.toNat_ofNat]
  omega

/-! ## Results and flags of the ALU -/

theorem flagByte_toNat (c : Bool) : (flagByte c).toNat = if c then 1 else 0 := by
  cases c <;> rfl

theorem sumByte_toNat (a b : Byte) : (sumByte a b).toNat = (a.toNat + b.toNat) % 256 := by
  simp [sumByte]

theorem diffByte_toNat (a b : Byte) :
    (diffByte a b).toNat =
      if a.toNat < b.toNat then a.toNat + 256 - b.toNat else a.toNat - b.toNat := by
  have := a.isLt
  have := b.isLt
  simp only [diffByte, BitVec.toNat_ofInt]
  split <;> omega

theorem halfByte_toNat (a : Byte) : (halfByte a).toNat = a.toNat / 2 := by
  have := a.isLt
  simp only [halfByte, BitVec.toNat_ofNat]
  omega

theorem doubleByte_toNat (a : Byte) : (doubleByte a).toNat = a.toNat * 2 % 256 := by
  simp [doubleByte, Nat.mul_comm]

theorem flagByte_lowBit_toNat (a : Byte) : (flagByte (lowBit a)).toNat = a.toNat % 2 := by
  revert a; decide

theorem flagByte_highBit_toNat (a : Byte) : (flagByte (highBit a)).toNat = a.toNat / 128 := by
  revert a; decide

theorem countDown_toNat (t : Byte) : (countDown t).toNat = t.toNat - 1 := by
  revert t; decide

end Sys2Proof.Machine
end

