-- ==== Sys2Proof/Laws/Display.lean ====
section
/-! SUPPORT. The display: a cell after a write, the cells a sprite addresses (each of them once), and
what the loop of `DRW` leaves. -/

namespace Sys2Proof.Machine

theorem pixAt_setPix (px x : Fin 64) (py y : Fin 32) (b : Bool) (p : Screen) :
    pixAt px py (setPix x y b p) = if px = x ∧ py = y then b else pixAt px py p := by
  unfold pixAt setPix
  rw [Vector.getElem_set]
  by_cases hy : py = y
  · subst hy
    simp [Vector.getElem_set, Fin.val_inj, eq_comm]
  · rw [if_neg (by simpa [Fin.val_inj, eq_comm] using hy), if_neg (fun h => hy h.2)]

theorem pixAt_blankScreen (px : Fin 64) (py : Fin 32) : pixAt px py blankScreen = false := by
  simp [pixAt, blankScreen]

/-- Two screens with the same cells are the same screen. -/
theorem screen_ext {p q : Screen} (h : ∀ px py, pixAt px py p = pixAt px py q) : p = q := by
  refine Vector.ext fun y hy => Vector.ext fun x hx => ?_
  exact h ⟨x, hx⟩ ⟨y, hy⟩

/-! ## The cells of a sprite -/

theorem mem_rowCells {x0 y : Nat} {b : Byte} {c : Fin 64 × Fin 32} :
    c ∈ rowCells x0 y b ↔
      ∃ k, k < 8 ∧ b.getLsbD (7 - k) = true ∧ c.1 = Fin.ofNat 64 (x0 + k) ∧ c.2 = Fin.ofNat 32 y := by
  obtain ⟨px, py⟩ := c
  simp only [rowCells, List.mem_filterMap, List.mem_range]
  refine exists_congr fun k => and_congr_right fun _ => ?_
  split <;> simp [*, eq_comm]

theorem mem_spriteCells {x0 y0 : Nat} {l : List Byte} {c : Fin 64 × Fin 32} :
    c ∈ spriteCells x0 y0 l ↔
      ∃ r, ∃ h : r < l.length, c ∈ rowCells x0 (y0 + r) l[r] := by
  induction l generalizing y0 with
  | nil => simp [spriteCells]
  | cons b l ih =>
    rw [spriteCells, List.mem_append, ih]
    constructor
    · rintro (h | ⟨r, hr, h⟩)
      · exact ⟨0, Nat.succ_pos _, h⟩
      · exact ⟨r + 1, Nat.succ_lt_succ hr, by rw [show y0 + (r + 1) = y0 + 1 + r by omega]; exact h⟩
    · rintro ⟨r, hr, h⟩
      cases r with
      | zero => exact .inl h
      | succ r =>
        refine .inr ⟨r, Nat.lt_of_succ_lt_succ hr, ?_⟩
        rw [show y0 + 1 + r = y0 + (r + 1) by omega]
        exact h

/-- The eight columns of a row are eight different columns of the screen. -/
theorem rowCells_nodup (x0 y : Nat) (b : Byte) : (rowCells x0 y b).Nodup := by
  rw [List.Nodup, rowCells, List.pairwise_filterMap]
  refine List.nodup_range.imp_of_mem fun {i j} hi hj hij c hc c' hc' he => hij ?_
  simp only [List.mem_range] at hi hj
  split at hc <;> simp only [Option.some.injEq, reduceCtorEq] at hc
  split at hc' <;> simp only [Option.some.injEq, reduceCtorEq] at hc'
  subst hc hc'
  have h := congrArg (fun q => q.1.val) he
  simp only [Fin.ofNat, Fin.val_mk] at h
  omega

/-- A sprite of at most 32 rows addresses no cell twice. -/
theorem spriteCells_nodup {x0 y0 : Nat} {l : List Byte} (hl : l.length ≤ 32) :
    (spriteCells x0 y0 l).Nodup := by
  induction l generalizing y0 with
  | nil => exact List.nodup_nil
  | cons b l ih =>
    simp only [List.length_cons] at hl
    refine List.nodup_append.2 ⟨rowCells_nodup x0 y0 b, ih (by omega), fun c hc c' hc' he => ?_⟩
    subst he
    obtain ⟨_, _, _, _, h1⟩ := mem_rowCells.1 hc
    obtain ⟨r, hr, h⟩ := mem_spriteCells.1 hc'
    obtain ⟨_, _, _, _, h2⟩ := mem_rowCells.1 h
    have h3 := congrArg Fin.val (h1.symm.trans h2)
    simp only [Fin.ofNat, Fin.val_mk] at h3
    omega

/-! ## The loop of `DRW` -/

theorem drawCells_pix {e : Bool} {cells : List (Fin 64 × Fin 32)} {d : Drawing}
    (h : cells.Nodup) (px : Fin 64) (py : Fin 32) :
    pixAt px py (cells.foldl (drawCell e) d).pix =
      if (px, py) ∈ cells then !pixAt px py d.pix else pixAt px py d.pix := by
  induction cells generalizing d with
  | nil => simp
  | cons c cells ih =>
    obtain ⟨hc, hn⟩ := List.nodup_cons.1 h
    rw [List.foldl_cons, ih hn]
    simp only [drawCell, pixAt_setPix, List.mem_cons]
    by_cases he : (px, py) = c
    · subst he
      simp [hc]
    · have he' : ¬(px = c.1 ∧ py = c.2) := fun h => he (Prod.ext h.1 h.2)
      simp [he, he']

/-- A cell that is not the one drawn keeps its state. -/
theorem pixAt_drawCell_of_ne {e : Bool} {d : Drawing} {c c' : Fin 64 × Fin 32} (h : c' ≠ c) :
    pixAt c'.1 c'.2 (drawCell e d c).pix = pixAt c'.1 c'.2 d.pix := by
  have h' : ¬(c'.1 = c.1 ∧ c'.2 = c.2) := fun h1 => h (Prod.ext h1.1 h1.2)
  simp only [drawCell, pixAt_setPix, if_neg h']

theorem drawCells_collision {e : Bool} {cells : List (Fin 64 × Fin 32)} {d : Drawing}
    (h : cells.Nodup) :
    (cells.foldl (drawCell e) d).collision = true ↔
      d.collision = true ∨ ∃ c ∈ cells, pixAt c.1 c.2 d.pix = true := by
  induction cells generalizing d with
  | nil => simp
  | cons c cells ih =>
    obtain ⟨hc, hn⟩ := List.nodup_cons.1 h
    have hp : ∀ c' ∈ cells, pixAt c'.1 c'.2 (drawCell e d c).pix = pixAt c'.1 c'.2 d.pix :=
      fun c' h' => pixAt_drawCell_of_ne fun he => hc (he ▸ h')
    rw [List.foldl_cons, ih hn, List.exists_mem_cons_iff, ← or_assoc]
    refine or_congr (by simp [drawCell]) (exists_congr fun c' => and_congr_right fun h' => ?_)
    rw [hp c' h']

theorem drawCells_events {e : Bool} {cells : List (Fin 64 × Fin 32)} {d : Drawing}
    (h : cells.Nodup) :
    (cells.foldl (drawCell e) d).events =
      d.events ++
        if e then cells.map fun c => .pixelSet c.1 c.2 (!pixAt c.1 c.2 d.pix) else [] := by
  induction cells generalizing d with
  | nil => simp
  | cons c cells ih =>
    obtain ⟨hc, hn⟩ := List.nodup_cons.1 h
    have hp : ∀ c' ∈ cells, pixAt c'.1 c'.2 (drawCell e d c).pix = pixAt c'.1 c'.2 d.pix :=
      fun c' h' => pixAt_drawCell_of_ne fun he => hc (he ▸ h')
    rw [List.foldl_cons, ih hn, List.map_congr_left fun c' h' => by rw [hp c' h']]
    cases e <;> simp [drawCell]

/-- Whether pixel events are emitted changes neither the buffer nor the flag. -/
theorem drawCells_parameter (e e' : Bool) {cells : List (Fin 64 × Fin 32)} {d d' : Drawing}
    (hp : d.pix = d'.pix) (hc : d.collision = d'.collision) :
    (cells.foldl (drawCell e) d).pix = (cells.foldl (drawCell e') d').pix ∧
      (cells.foldl (drawCell e) d).collision = (cells.foldl (drawCell e') d').collision := by
  induction cells generalizing d d' with
  | nil => exact ⟨hp, hc⟩
  | cons c cells ih => exact ih (by simp [drawCell, hp]) (by simp [drawCell, hp, hc])

end Sys2Proof.Machine
end

