-- ==== Sys2Proof/Laws/Exec.lean ====
section
/-! SUPPORT. What an instruction can do, said once: it always answers a next state, it ends in one of
three ways, and the checked memory instructions have one equation for each way. -/

namespace Sys2Proof.Machine

/-! ## The checked instructions -/

theorem execLdBVx_of_storable {x : RegIdx} {s : State} (h : 0x200 ≤ s.i.toNat)
    (h' : s.i.toNat ≤ 0xFFD) :
    execLdBVx x s = .next (advance (storeBytes (memBase s) (bcdDigits (readV x s)) s)) := by
  unfold execLdBVx
  rw [checkSpan_write (by decide) (by decide), if_neg (by simp only [memBase]; omega),
    if_pos (by simp only [memBase]; omega), unlessFault_none]

theorem execLdBVx_of_reserved {x : RegIdx} {s : State} (h : s.i.toNat < 0x200) :
    execLdBVx x s = raise .writeProtectFault s := by
  unfold execLdBVx
  rw [checkSpan_write (by decide) (by decide), if_pos (by simp only [memBase]; omega),
    unlessFault_some]

theorem execLdBVx_of_high {x : RegIdx} {s : State} (h : 0xFFD < s.i.toNat) :
    execLdBVx x s = raise .addressFault s := by
  unfold execLdBVx
  rw [checkSpan_write (by decide) (by decide), if_neg (by simp only [memBase]; omega),
    if_neg (by simp only [memBase]; omega), unlessFault_some]

theorem execLdMemVx_of_storable {x : RegIdx} {s : State} (h : 0x200 ≤ s.i.toNat)
    (h' : s.i.toNat + x.val ≤ 0xFFF) :
    execLdMemVx x s = .next (advance (storeBytes (memBase s) (lowRegs x s) s)) := by
  have := x.isLt
  unfold execLdMemVx
  rw [checkSpan_write (by omega) (by omega), if_neg (by simp only [memBase]; omega),
    if_pos (by simp only [memBase]; omega), unlessFault_none]

theorem execLdMemVx_of_reserved {x : RegIdx} {s : State} (h : s.i.toNat < 0x200) :
    execLdMemVx x s = raise .writeProtectFault s := by
  have := x.isLt
  unfold execLdMemVx
  rw [checkSpan_write (by omega) (by omega), if_pos (by simp only [memBase]; omega),
    unlessFault_some]

theorem execLdMemVx_of_high {x : RegIdx} {s : State} (h : 0xFFF < s.i.toNat + x.val) :
    execLdMemVx x s = raise .addressFault s := by
  have := x.isLt
  unfold execLdMemVx
  rw [checkSpan_write (by omega) (by omega), if_neg (by simp only [memBase]; omega),
    if_neg (by simp only [memBase]; omega), unlessFault_some]

theorem execLdVxMem_of_readable {x : RegIdx} {s : State} (h : s.i.toNat + x.val ≤ 0xFFF) :
    execLdVxMem x s =
      .next (advance { s with v := setRegs s.v 0 (loadBytes (memBase s) (x.val + 1) s) }) := by
  unfold execLdVxMem
  rw [checkSpan_read, if_pos (by simp only [memBase]; omega), unlessFault_none]

theorem execLdVxMem_of_high {x : RegIdx} {s : State} (h : 0xFFF < s.i.toNat + x.val) :
    execLdVxMem x s = raise .addressFault s := by
  unfold execLdVxMem
  rw [checkSpan_read, if_neg (by simp only [memBase]; omega), unlessFault_some]

/-- The cells the sprite of a `DRW` addresses. -/
def drawnCells (x y : RegIdx) (n : Fin 16) (s : State) : List (Fin 64 × Fin 32) :=
  spriteCells (readV x s).toNat (readV y s).toNat (loadBytes (memBase s) n.val s)

theorem drawnCells_nodup (x y : RegIdx) (n : Fin 16) (s : State) : (drawnCells x y n s).Nodup :=
  spriteCells_nodup (by have := n.isLt; rw [loadBytes_length]; omega)

theorem execDrw_of_readable {x y : RegIdx} {n : Fin 16} {s : State}
    (h : n.val = 0 ∨ s.i.toNat + n.val - 1 ≤ 0xFFF) :
    execDrw x y n s =
      .next (advance (emitRedraw
        (writeV flagReg (flagByte (drawSprite (drawnCells x y n s) s).collision)
          { s with
            pix := (drawSprite (drawnCells x y n s) s).pix
            events := (drawSprite (drawnCells x y n s) s).events }))) := by
  unfold execDrw
  rw [checkSpan_read, if_pos (by simp only [memBase]; omega), unlessFault_none]
  rfl

theorem execDrw_of_high {x y : RegIdx} {n : Fin 16} {s : State} (h0 : n.val ≠ 0)
    (h : s.i.toNat + n.val - 1 > 0xFFF) : execDrw x y n s = raise .addressFault s := by
  unfold execDrw
  rw [checkSpan_read, if_neg (by simp only [memBase]; omega), unlessFault_some]

/-! ## How an instruction ends -/

/-- A meaning always answers a next state. -/
theorem exec_answers (i : Instr) (s : State) : ∃ t, exec i s = .next t := by
  cases i <;>
    simp only [exec, execSys, execRet, execJp, execCall, execSeVxKk, execSneVxKk, execSeVxVy,
      execSneVxVy, execJpV0, execLdVxKk, execAddVxKk, execLdVxVy, execOrVxVy, execAndVxVy,
      execXorVxVy, execAddVxVy, execSubVxVy, execShrVx, execSubnVxVy, execShlVx, execRndVxKk, execLdI,
      execAddIVx, execLdFVx, execLdBVx, execLdMemVx, execLdVxMem, execCls, execDrw, execLdVxDt,
      execLdDtVx, execLdStVx, execSkpVx, execSknpVx, execLdVxK, popToPc, pushThen, unlessFault,
      raise] <;>
    (repeat' split) <;> exact ⟨_, rfl⟩

/-- A fault found by a check is one of the two faults of memory. -/
theorem checkSpan_some {check : Nat → Option FaultKind} {a n : Nat} {kind : FaultKind}
    (h : checkSpan check a n = some kind) : ∃ b, check b = some kind := by
  induction n generalizing a with
  | zero => cases h
  | succ n ih =>
    unfold checkSpan at h
    split at h
    · exact ⟨a, by simp_all⟩
    · exact ih h

theorem checkRead_some {b : Nat} {kind : FaultKind} (h : checkRead b = some kind) :
    kind = .addressFault := by
  unfold checkRead at h
  split at h <;> simp_all

theorem checkWrite_some {b : Nat} {kind : FaultKind} (h : checkWrite b = some kind) :
    kind = .addressFault ∨ kind = .writeProtectFault := by
  unfold checkWrite at h
  repeat' split at h
  all_goals simp_all

/-- An instruction of a running machine ends in one of three ways: it runs on, it waits for a key (only
the key wait does), or it has faulted, and then only the run state has changed; the fault is
`INVALID_OPCODE` only for `SYS` under the policy `invalid`. -/
theorem exec_ends {i : Instr} {s t : State} (h : exec i s = .next t) (hr : s.rs = .running) :
    (t.rs = .running ∧ ∀ x, i ≠ .ldVxK x) ∨ (t.rs = .waitingForInput ∧ ∃ x, i = .ldVxK x) ∨
    ∃ kind, t = { s with rs := .terminal kind } ∧ kind ≠ .unsupportedOpcode ∧
      (kind = .invalidOpcode ↔ ∃ nnn, i = .sys nnn) ∧
      ((∃ nnn, i = .sys nnn) → s.cfg.sysPolicy = .invalid) ∧ ∀ x, i ≠ .ldVxK x := by
  cases i <;>
    simp only [exec, execSys, execRet, execJp, execCall, execSeVxKk, execSneVxKk, execSeVxVy,
      execSneVxVy, execJpV0, execLdVxKk, execAddVxKk, execLdVxVy, execOrVxVy, execAndVxVy,
      execXorVxVy, execAddVxVy, execSubVxVy, execShrVx, execSubnVxVy, execShlVx, execRndVxKk, execLdI,
      execAddIVx, execLdFVx, execLdBVx, execLdMemVx, execLdVxMem, execCls, execDrw, execLdVxDt,
      execLdDtVx, execLdStVx, execSkpVx, execSknpVx, execLdVxK, popToPc, pushThen, unlessFault,
      raise] at h
  all_goals (repeat' split at h)
  all_goals (injection h with h; subst h)
  all_goals first
    | exact .inr (.inl ⟨rfl, _, rfl⟩)
    | (refine .inl ⟨?_, by simp⟩; simp [hr]; done)
    | (refine .inr (.inr ⟨_, rfl, ?_⟩); simp; done)
    | (refine .inr (.inr ⟨_, rfl, ?_⟩); simp; assumption)
    | skip
  all_goals
    refine .inr (.inr ⟨_, rfl, ?_⟩)
    obtain ⟨b, hb⟩ := checkSpan_some ‹_›
    first
      | (rw [checkRead_some hb]; simp)
      | (rcases checkWrite_some hb with hk | hk <;> rw [hk] <;> simp)

end Sys2Proof.Machine
end

