-- ==== Sys2Proof/Laws/PerInstr.lean ====
section
/-! SUPPORT. What holds of every instruction as syntax: its word has the fixed bits that its row of
spec/opcode_table.json gives. -/

namespace Sys2Proof.Laws.EncodingPattern

/-- The row's `mask` and `match`. -/
def row : Instr → Word × Word
  | .sys _ => (0xF000, 0x0000)
  | .cls => (0xFFFF, 0x00E0)
  | .ret => (0xFFFF, 0x00EE)
  | .jp _ => (0xF000, 0x1000)
  | .call _ => (0xF000, 0x2000)
  | .seVxKk _ _ => (0xF000, 0x3000)
  | .sneVxKk _ _ => (0xF000, 0x4000)
  | .seVxVy _ _ => (0xF00F, 0x5000)
  | .ldVxKk _ _ => (0xF000, 0x6000)
  | .addVxKk _ _ => (0xF000, 0x7000)
  | .ldVxVy _ _ => (0xF00F, 0x8000)
  | .orVxVy _ _ => (0xF00F, 0x8001)
  | .andVxVy _ _ => (0xF00F, 0x8002)
  | .xorVxVy _ _ => (0xF00F, 0x8003)
  | .addVxVy _ _ => (0xF00F, 0x8004)
  | .subVxVy _ _ => (0xF00F, 0x8005)
  | .shrVx _ _ => (0xF00F, 0x8006)
  | .subnVxVy _ _ => (0xF00F, 0x8007)
  | .shlVx _ _ => (0xF00F, 0x800E)
  | .sneVxVy _ _ => (0xF00F, 0x9000)
  | .ldI _ => (0xF000, 0xA000)
  | .jpV0 _ => (0xF000, 0xB000)
  | .rndVxKk _ _ => (0xF000, 0xC000)
  | .drw _ _ _ => (0xF000, 0xD000)
  | .skpVx _ => (0xF0FF, 0xE09E)
  | .sknpVx _ => (0xF0FF, 0xE0A1)
  | .ldVxDt _ => (0xF0FF, 0xF007)
  | .ldVxK _ => (0xF0FF, 0xF00A)
  | .ldDtVx _ => (0xF0FF, 0xF015)
  | .ldStVx _ => (0xF0FF, 0xF018)
  | .addIVx _ => (0xF0FF, 0xF01E)
  | .ldFVx _ => (0xF0FF, 0xF029)
  | .ldBVx _ => (0xF0FF, 0xF033)
  | .ldMemVx _ => (0xF0FF, 0xF055)
  | .ldVxMem _ => (0xF0FF, 0xF065)

/-- The word of the instruction carries the fixed bits of its row (30_encoding.md R65). -/
def Statement (i : Instr) : Prop := encode i &&& (row i).1 = (row i).2

/-! ## The shapes of a word under a mask -/

theorem and_nibble (b : BitVec 4) : b &&& 0xF#4 = b := BitVec.and_allOnes

theorem and_byte (b : Byte) : b &&& 0xFF#8 = b := BitVec.and_allOnes

theorem nibble_zero : nibble 0 = 0#4 := rfl

theorem formatA (c : BitVec 4) (a : Addr) : encodeA c a &&& 0xF000 = encodeA c 0 := by
  have h : (0xF000 : Word) = 0xF#4 ++ 0#12 := by decide
  rw [h, encodeA, BitVec.and_append]
  simp [encodeA, and_nibble]

theorem formatXK (c : BitVec 4) (x : RegIdx) (kk : Byte) :
    encodeXK c x kk &&& 0xF000 = encodeXK c 0 0 := by
  have h : (0xF000 : Word) = 0xF#4 ++ 0#4 ++ 0#8 := by decide
  rw [h, encodeXK, BitVec.and_append, BitVec.and_append]
  simp [encodeXK, and_nibble, nibble_zero]

theorem formatX (c : BitVec 4) (x : RegIdx) (kk : Byte) :
    encodeXK c x kk &&& 0xF0FF = encodeXK c 0 kk := by
  have h : (0xF0FF : Word) = 0xF#4 ++ 0#4 ++ 0xFF#8 := by decide
  rw [h, encodeXK, BitVec.and_append, BitVec.and_append]
  simp [encodeXK, and_nibble, and_byte, nibble_zero]

theorem formatXYN (c : BitVec 4) (x y : RegIdx) (n : BitVec 4) :
    encodeXY c x y n &&& 0xF000 = encodeXY c 0 0 0 := by
  have h : (0xF000 : Word) = 0xF#4 ++ 0#4 ++ 0#4 ++ 0#4 := by decide
  rw [h, encodeXY, BitVec.and_append, BitVec.and_append, BitVec.and_append]
  simp [encodeXY, and_nibble, nibble_zero]

theorem formatXY (c : BitVec 4) (x y : RegIdx) (m : BitVec 4) :
    encodeXY c x y m &&& 0xF00F = encodeXY c 0 0 m := by
  have h : (0xF00F : Word) = 0xF#4 ++ 0#4 ++ 0#4 ++ 0xF#4 := by decide
  rw [h, encodeXY, BitVec.and_append, BitVec.and_append, BitVec.and_append]
  simp [encodeXY, and_nibble, nibble_zero]

/-! ## One lemma for each instruction -/

theorem sys (nnn : Addr) : Statement (.sys nnn) := (formatA _ _).trans rfl
theorem cls : Statement .cls := rfl
theorem ret : Statement .ret := rfl
theorem jp (nnn : Addr) : Statement (.jp nnn) := (formatA _ _).trans rfl
theorem call (nnn : Addr) : Statement (.call nnn) := (formatA _ _).trans rfl
theorem seVxKk (x : RegIdx) (kk : Byte) : Statement (.seVxKk x kk) :=
  (formatXK _ _ _).trans rfl
theorem sneVxKk (x : RegIdx) (kk : Byte) : Statement (.sneVxKk x kk) :=
  (formatXK _ _ _).trans rfl
theorem seVxVy (x y : RegIdx) : Statement (.seVxVy x y) := (formatXY _ _ _ _).trans rfl
theorem ldVxKk (x : RegIdx) (kk : Byte) : Statement (.ldVxKk x kk) :=
  (formatXK _ _ _).trans rfl
theorem addVxKk (x : RegIdx) (kk : Byte) : Statement (.addVxKk x kk) :=
  (formatXK _ _ _).trans rfl
theorem ldVxVy (x y : RegIdx) : Statement (.ldVxVy x y) := (formatXY _ _ _ _).trans rfl
theorem orVxVy (x y : RegIdx) : Statement (.orVxVy x y) := (formatXY _ _ _ _).trans rfl
theorem andVxVy (x y : RegIdx) : Statement (.andVxVy x y) := (formatXY _ _ _ _).trans rfl
theorem xorVxVy (x y : RegIdx) : Statement (.xorVxVy x y) := (formatXY _ _ _ _).trans rfl
theorem addVxVy (x y : RegIdx) : Statement (.addVxVy x y) := (formatXY _ _ _ _).trans rfl
theorem subVxVy (x y : RegIdx) : Statement (.subVxVy x y) := (formatXY _ _ _ _).trans rfl
theorem shrVx (x y : RegIdx) : Statement (.shrVx x y) := (formatXY _ _ _ _).trans rfl
theorem subnVxVy (x y : RegIdx) : Statement (.subnVxVy x y) := (formatXY _ _ _ _).trans rfl
theorem shlVx (x y : RegIdx) : Statement (.shlVx x y) := (formatXY _ _ _ _).trans rfl
theorem sneVxVy (x y : RegIdx) : Statement (.sneVxVy x y) := (formatXY _ _ _ _).trans rfl
theorem ldI (nnn : Addr) : Statement (.ldI nnn) := (formatA _ _).trans rfl
theorem jpV0 (nnn : Addr) : Statement (.jpV0 nnn) := (formatA _ _).trans rfl
theorem rndVxKk (x : RegIdx) (kk : Byte) : Statement (.rndVxKk x kk) :=
  (formatXK _ _ _).trans rfl
theorem drw (x y : RegIdx) (n : Fin 16) : Statement (.drw x y n) := (formatXYN _ _ _ _).trans rfl
theorem skpVx (x : RegIdx) : Statement (.skpVx x) := (formatX _ _ _).trans rfl
theorem sknpVx (x : RegIdx) : Statement (.sknpVx x) := (formatX _ _ _).trans rfl
theorem ldVxDt (x : RegIdx) : Statement (.ldVxDt x) := (formatX _ _ _).trans rfl
theorem ldVxK (x : RegIdx) : Statement (.ldVxK x) := (formatX _ _ _).trans rfl
theorem ldDtVx (x : RegIdx) : Statement (.ldDtVx x) := (formatX _ _ _).trans rfl
theorem ldStVx (x : RegIdx) : Statement (.ldStVx x) := (formatX _ _ _).trans rfl
theorem addIVx (x : RegIdx) : Statement (.addIVx x) := (formatX _ _ _).trans rfl
theorem ldFVx (x : RegIdx) : Statement (.ldFVx x) := (formatX _ _ _).trans rfl
theorem ldBVx (x : RegIdx) : Statement (.ldBVx x) := (formatX _ _ _).trans rfl
theorem ldMemVx (x : RegIdx) : Statement (.ldMemVx x) := (formatX _ _ _).trans rfl
theorem ldVxMem (x : RegIdx) : Statement (.ldVxMem x) := (formatX _ _ _).trans rfl

end Sys2Proof.Laws.EncodingPattern
end

