-- ==== Sys2Proof/Laws/Step.lean ====
section
/-! SUPPORT. The step, one equation for each command it may serve and for each way a `cycle` ends, and
runs of several steps. -/

namespace Sys2Proof.Machine

/-! ## Which command a step serves -/

theorem step_of_nil {s : State} (h : s.commands = []) : step s = cycle none s := by
  unfold step serveNext
  rw [h]

theorem step_of_cons {s : State} {c : Command} {cs : List Command} (h : s.commands = c :: cs) :
    step s = serve c { s with commands := cs } := by
  unfold step serveNext
  rw [h]

/-! ## The work of a `cycle` -/

theorem runCycle_of_waiting {s : State} (h : s.rs = .waitingForInput) : runCycle s = .next s := by
  unfold runCycle
  rw [h]

theorem runCycle_of_terminal {s : State} {kind : FaultKind} (h : s.rs = .terminal kind) :
    runCycle s = .next s := by
  unfold runCycle
  rw [h]

theorem runCycle_of_unfetchable {s : State} (h : s.rs = .running) (hp : s.pc.toNat > 0xFFE) :
    runCycle s = raise .addressFault s := by
  unfold runCycle fetchDecodeExecute
  rw [h, fetch_of_gt hp]

theorem runCycle_of_invalid {s : State} {w : Word} {why : DecodeError} (h : s.rs = .running)
    (hf : fetch s = some w) (hd : decode w = .invalid why) :
    runCycle s = raise .invalidOpcode s := by
  unfold runCycle fetchDecodeExecute
  rw [h, hf]
  simp only [hd]

theorem runCycle_of_instr {s : State} {w : Word} {i : Instr} (h : s.rs = .running)
    (hf : fetch s = some w) (hd : decode w = .instr i) : runCycle s = exec i s := by
  unfold runCycle fetchDecodeExecute
  rw [h, hf]
  simp only [hd]

/-- The response of a `cycle` that ends live. -/
theorem cycleResponse_of_live {rs : RunState} (h : ∀ kind, rs ≠ .terminal kind) :
    cycleResponse rs = .ok := by
  cases rs with
  | running => rfl
  | waitingForInput => rfl
  | terminal kind => exact absurd rfl (h kind)

/-- The work of a `cycle` always ends in a next state. -/
theorem runCycle_answers (s : State) : ∃ t, runCycle s = .next t := by
  unfold runCycle fetchDecodeExecute
  repeat' split
  all_goals first | exact ⟨_, rfl⟩ | exact exec_answers _ _

/-! ## Runs -/

theorem run_succ (M : Host.Core) {s t : M.State} (n : Nat) (h : M.step s = .next t) :
    M.run (n + 1) s = M.run n t := by
  simp only [Host.Core.run, h]

end Sys2Proof.Machine
end

