-- ==== Sys2Proof/Tests/Slice0.lean ====
section
/-! SUPPORT. The author's tests: ill-formed terms, one word of every row written bit by bit from
spec/30_encoding.md R65, single steps with the results of spec/95_test_vectors.md (named beside each),
and for every statement with hypotheses a state and operands that meet them together. -/

open Sys2Proof Sys2Proof.Machine

namespace Sys2Proof.Tests

/-! ## WellFormed refuses what no word encodes -/

theorem test_sys_of_cls_word_is_ill_formed : (Instr.sys 0x0E0).wellFormed = false := by decide
theorem test_sys_of_ret_word_is_ill_formed : (Instr.sys 0x0EE).wellFormed = false := by decide
theorem test_sys_beside_them_is_well_formed :
    (Instr.sys 0x0E1).wellFormed = true ∧ (Instr.sys 0x0EF).wellFormed = true := by decide

/-! ## One word of every row (R65), its bits grouped by nibble -/

theorem test_decode_control_flow :
    decode 0b0000_0001_0010_0011#16 = .instr (.sys 0x123) ∧
    decode 0b0000_0000_1110_1110#16 = .instr .ret ∧
    decode 0b0001_1010_1011_1100#16 = .instr (.jp 0xABC) ∧
    decode 0b0010_0011_0000_0000#16 = .instr (.call 0x300) ∧
    decode 0b0011_0001_1000_0010#16 = .instr (.seVxKk 1 0x82) ∧
    decode 0b0100_1010_0000_0101#16 = .instr (.sneVxKk 0xA 5) ∧
    decode 0b0101_1010_1011_0000#16 = .instr (.seVxVy 0xA 0xB) ∧
    decode 0b1001_1010_1011_0000#16 = .instr (.sneVxVy 0xA 0xB) ∧
    decode 0b1011_0011_0000_0001#16 = .instr (.jpV0 0x301) := by decide

theorem test_decode_load_alu :
    decode 0b0110_0011_0010_1100#16 = .instr (.ldVxKk 3 0x2C) ∧
    decode 0b0111_0011_0000_0001#16 = .instr (.addVxKk 3 1) ∧
    decode 0b1000_1010_1011_0000#16 = .instr (.ldVxVy 0xA 0xB) ∧
    decode 0b1000_1010_1011_0001#16 = .instr (.orVxVy 0xA 0xB) ∧
    decode 0b1000_1010_1011_0010#16 = .instr (.andVxVy 0xA 0xB) ∧
    decode 0b1000_1010_1011_0011#16 = .instr (.xorVxVy 0xA 0xB) ∧
    decode 0b1000_1010_1011_0100#16 = .instr (.addVxVy 0xA 0xB) ∧
    decode 0b1000_1010_1011_0101#16 = .instr (.subVxVy 0xA 0xB) ∧
    decode 0b1000_1010_1011_0110#16 = .instr (.shrVx 0xA 0xB) ∧
    decode 0b1000_1010_1011_0111#16 = .instr (.subnVxVy 0xA 0xB) ∧
    decode 0b1000_1010_1011_1110#16 = .instr (.shlVx 0xA 0xB) ∧
    decode 0b1100_0011_0000_1111#16 = .instr (.rndVxKk 3 0x0F) := by decide

theorem test_decode_index_memory :
    decode 0b1010_0011_0000_0000#16 = .instr (.ldI 0x300) ∧
    decode 0b1111_0001_0001_1110#16 = .instr (.addIVx 1) ∧
    decode 0b1111_0001_0010_1001#16 = .instr (.ldFVx 1) ∧
    decode 0b1111_0001_0011_0011#16 = .instr (.ldBVx 1) ∧
    decode 0b1111_0001_0101_0101#16 = .instr (.ldMemVx 1) ∧
    decode 0b1111_0001_0110_0101#16 = .instr (.ldVxMem 1) := by decide

theorem test_decode_display_timers_keypad :
    decode 0b0000_0000_1110_0000#16 = .instr .cls ∧
    decode 0b1101_0001_0010_0101#16 = .instr (.drw 1 2 5) ∧
    decode 0b1110_0001_1001_1110#16 = .instr (.skpVx 1) ∧
    decode 0b1110_0001_1010_0001#16 = .instr (.sknpVx 1) ∧
    decode 0b1111_0001_0000_0111#16 = .instr (.ldVxDt 1) ∧
    decode 0b1111_0001_0000_1010#16 = .instr (.ldVxK 1) ∧
    decode 0b1111_0001_0001_0101#16 = .instr (.ldDtVx 1) ∧
    decode 0b1111_0001_0001_1000#16 = .instr (.ldStVx 1) := by decide

/-- TV-DEC-06, 08, 10, 13, 15, 16. -/
theorem test_decode_rejects :
    decode 0x5AB1 = .invalid .class5Modifier ∧ decode 0x5ABF = .invalid .class5Modifier ∧
    decode 0x8AB8 = .invalid .class8Modifier ∧ decode 0x8ABD = .invalid .class8Modifier ∧
    decode 0x8ABF = .invalid .class8Modifier ∧ decode 0x9AB5 = .invalid .class9Modifier ∧
    decode 0xE19F = .invalid .classEModifier ∧ decode 0xE100 = .invalid .classEModifier ∧
    decode 0xF100 = .invalid .classFModifier ∧ decode 0xF175 = .invalid .classFModifier ∧
    decode 0xFFFF = .invalid .classFModifier := by decide

theorem test_decode_truncated : decodeBytes [0x12] = .invalid .truncated := by decide

/-! ## Single steps -/

/-- The state after one step at the word `w` (the start state itself if the step stopped). -/
def after (w : Nat) (s : State) : State :=
  match step (s.withFetchWord 16 w) with
  | .next t => t
  | .fault _ => s
  | .refused _ => s

/-- The state after one step serves `c`. -/
def served (c : Command) (s : State) : State :=
  match step { s with commands := [c] } with
  | .next t => t
  | .fault _ => s
  | .refused _ => s

/-- The state after reset with the listed registers set. -/
def withV (l : List (RegIdx × Byte)) : State := l.foldl (fun s p => writeV p.1 p.2 s) State.reset

/-- The same with `I` set. -/
def withVI (l : List (RegIdx × Byte)) (i : Word) : State := { withV l with i := i }

/-- TV-CF-17. -/
theorem test_sys_invalid :
    (after 0x0123 .reset).rs = .terminal .invalidOpcode ∧ (after 0x0123 .reset).pc = 0x200 ∧
    (after 0x0123 .reset).response = some (.fail .invalidOpcode) := by decide
theorem test_sys_nop :
    (after 0x0123 (State.initial { defaultConfig with sysPolicy := .nop })).pc = 0x202 := by decide

/-- TV-CF-01. -/
theorem test_jp : (after 0x1204 { State.reset with pc := 0x20A }).pc = 0x204 := by decide

/-- TV-CF-02, TV-CF-03. -/
theorem test_call_last_slot :
    let t := after 0x2300 { State.reset with sp := 15 }
    t.stack[15] = 0x0202 ∧ t.sp = 16 ∧ t.pc = 0x300 ∧ t.response = some .ok := by decide
theorem test_call_overflow :
    let t := after 0x2300 { State.reset with sp := 16 }
    t.rs = .terminal .stackOverflow ∧ t.sp = 16 ∧ t.pc = 0x200 := by decide

/-- TV-CF-04, TV-CF-05. -/
theorem test_ret_underflow :
    let t := after 0x00EE .reset
    t.rs = .terminal .stackUnderflow ∧ t.sp = 0 ∧ t.pc = 0x200 := by decide
theorem test_ret_stale_slot :
    let t := after 0x00EE { State.reset with sp := 1, stack := State.reset.stack.set 0 0x0ABC }
    t.pc = 0xABC ∧ t.sp = 0 ∧ t.stack[0] = 0x0ABC := by decide

/-- TV-CF-06 to TV-CF-10. -/
theorem test_se_kk : (after 0x3000 (withV [])).pc = 0x204 ∧ (after 0x3000 (withV [(0, 1)])).pc = 0x202 := by
  decide
theorem test_sne_kk :
    (after 0x4A05 (withV [(0xA, 5)])).pc = 0x202 ∧ (after 0x4A05 (withV [(0xA, 6)])).pc = 0x204 := by
  decide
theorem test_se_vy :
    (after 0x5120 (withV [(1, 7), (2, 7)])).pc = 0x204 ∧
    (after 0x5120 (withV [(1, 7), (2, 8)])).pc = 0x202 ∧ (after 0x5330 .reset).pc = 0x204 := by decide
theorem test_sne_vy :
    (after 0x9120 (withV [(1, 7), (2, 8)])).pc = 0x204 ∧
    (after 0x9120 (withV [(1, 7), (2, 7)])).pc = 0x202 ∧ (after 0x9330 .reset).pc = 0x202 := by decide

/-- TV-CF-11, TV-CF-12. -/
theorem test_jp_v0 :
    (after 0xB300 (withV [(0, 4)])).pc = 0x304 ∧ (after 0xBFFF (withV [(0, 0xFF)])).pc = 0x10FE := by
  decide

/-- TV-ALU-01 to TV-ALU-04. -/
theorem test_ld_kk : readV 3 (after 0x632C .reset) = 0x2C ∧ (after 0x632C .reset).pc = 0x202 := by decide
theorem test_add_kk :
    let t := after 0x7301 (withV [(3, 0xFF), (0xF, 7)])
    readV 3 t = 0 ∧ readV 0xF t = 7 ∧ readV 0xF (after 0x7F20 (withV [(0xF, 0x10)])) = 0x30 := by decide
theorem test_ld_vy : readV 1 (after 0x8120 (withV [(2, 9)])) = 9 := by decide

/-- TV-ALU-05 to TV-ALU-07. -/
theorem test_or :
    let t := after 0x8121 (withV [(1, 0x0F), (2, 0xF0), (0xF, 0xAA)])
    readV 1 t = 0xFF ∧ readV 0xF t = 0xAA := by decide
theorem test_and :
    let t := after 0x8122 (withV [(1, 0x3C), (2, 0x0F), (0xF, 0xAA)])
    readV 1 t = 0x0C ∧ readV 0xF t = 0xAA := by decide
theorem test_xor :
    let t := after 0x8123 (withV [(1, 0xFF), (2, 0x0F), (0xF, 0xAA)])
    readV 1 t = 0xF0 ∧ readV 0xF t = 0xAA := by decide

/-- S4, S9, TV-ALU-10. -/
theorem test_add_vy_carry :
    let t := after 0x8124 (withV [(1, 200), (2, 100)])
    readV 1 t = 44 ∧ readV 0xF t = 1 ∧ readV 0xF (after 0x8F14 (withV [(0xF, 200), (1, 100)])) = 1 := by
  decide
theorem test_add_vy_old_flag_is_addend :
    let t := after 0x81F4 (withV [(1, 5), (0xF, 3)])
    readV 1 t = 8 ∧ readV 0xF t = 0 := by decide

/-- TV-ALU-13, TV-ALU-20. -/
theorem test_sub :
    let t := after 0x8125 (withV [(1, 10), (2, 20)])
    readV 1 t = 246 ∧ readV 0xF t = 0 ∧ readV 0xF (after 0x8F15 (withV [(0xF, 200), (1, 100)])) = 1 := by
  decide
theorem test_sub_equal :
    let t := after 0x8125 (withV [(1, 7), (2, 7), (0xF, 1)])
    readV 1 t = 0 ∧ readV 0xF t = 0 := by decide

/-- TV-ALU-14. -/
theorem test_subn :
    let t := after 0x8127 (withV [(1, 10), (2, 20)])
    let u := after 0x8127 (withV [(1, 20), (2, 10)])
    readV 1 t = 10 ∧ readV 0xF t = 1 ∧ readV 1 u = 246 ∧ readV 0xF u = 0 := by decide

/-- TV-ALU-16, TV-ALU-17. -/
theorem test_shr :
    let t := after 0x84C6 (withV [(4, 5), (0xC, 0xFF)])
    readV 4 t = 2 ∧ readV 0xF t = 1 ∧ readV 0xC t = 0xFF := by decide
theorem test_shr_of_vf :
    readV 0xF (after 0x8F06 (withV [(0xF, 6)])) = 0 ∧ readV 0xF (after 0x8F06 (withV [(0xF, 5)])) = 1 := by
  decide

/-- TV-ALU-18, TV-ALU-19. -/
theorem test_shl :
    let t := after 0x840E (withV [(4, 0x81)])
    readV 4 t = 2 ∧ readV 0xF t = 1 := by decide
theorem test_shl_of_vf :
    readV 0xF (after 0x8F0E (withV [(0xF, 0x81)])) = 1 ∧
    readV 0xF (after 0x8F0E (withV [(0xF, 0x41)])) = 0 := by decide

/-- TV-ALU-21: the random byte is the operand of the command. -/
theorem test_rnd :
    readV 3 (served (.cycle 0xB7) (placeWord 0xC30F .reset)) = 0x07 ∧
    readV 3 (served (.cycle 0xB7) (placeWord 0xC3FF .reset)) = 0xB7 := by decide

/-- TV-MEM-01 to TV-MEM-04. -/
theorem test_ld_i : (after 0xA300 .reset).i = 0x0300 := by decide
theorem test_add_i :
    (after 0xF21E (withVI [(2, 1)] 0x0FFF)).i = 0x1000 ∧ (after 0xF21E (withVI [(2, 1)] 0xFFFF)).i = 0 := by
  decide
theorem test_ld_f :
    (after 0xF029 (withV [(0, 3)])).i = 0x000F ∧ (after 0xF029 (withV [(0, 0x1A)])).i = 0x0032 ∧
    (after 0xF029 (withV [(0, 0xF)])).i = 0x004B := by decide

/-- TV-MEM-06, TV-MEM-13. -/
theorem test_ld_b :
    let t := after 0xF033 (withVI [(0, 234)] 0x300)
    memAt 0x300 t = 2 ∧ memAt 0x301 t = 3 ∧ memAt 0x302 t = 4 ∧ t.i = 0x300 := by decide
theorem test_ld_b_edges :
    memAt 0xFFF (after 0xF033 (withVI [(0, 123)] 0xFFD)) = 3 ∧
    (after 0xF033 (withVI [(0, 123)] 0xFFE)).rs = .terminal .addressFault ∧
    (after 0xF033 (withVI [(0, 123)] 0x1FE)).rs = .terminal .writeProtectFault := by decide

/-- TV-MEM-05, TV-MEM-09, TV-MEM-10, TV-MEM-15. -/
theorem test_ld_mem :
    let t := after 0xF255 (withVI [(0, 0x11), (1, 0x22), (2, 0x33), (3, 0x44)] 0x400)
    memAt 0x400 t = 0x11 ∧ memAt 0x402 t = 0x33 ∧ memAt 0x403 t = 0 ∧ t.i = 0x400 := by decide
theorem test_ld_mem_faults_whole :
    let t := after 0xF155 (withVI [(0, 0xAB), (1, 0xCD)] 0x1FF)
    let u := after 0xF255 (withVI [(0, 1), (1, 2), (2, 3)] 0xFFE)
    t.rs = .terminal .writeProtectFault ∧ memAt 0x200 t = 0xF1 ∧
    u.rs = .terminal .addressFault ∧ memAt 0xFFE u = 0 := by decide

/-- TV-MEM-08, TV-MEM-12. -/
theorem test_ld_vx_mem_font :
    let t := after 0xF465 .reset
    readV 0 t = 0xF0 ∧ readV 1 t = 0x90 ∧ readV 4 t = 0xF0 ∧ readV 5 t = 0 ∧ t.i = 0 := by decide
theorem test_ld_vx_mem_faults :
    let t := after 0xF165 (withVI [(0, 0x55)] 0xFFF)
    t.rs = .terminal .addressFault ∧ readV 0 t = 0x55 := by decide

/-- TV-DRW-11. -/
theorem test_cls :
    let t := after 0x00E0 { withV [(0xF, 9)] with pix := setPix 3 3 true State.reset.pix }
    t.pix = blankScreen ∧ readV 0xF t = 9 ∧ t.events = [.redraw] ∧ t.pc = 0x202 := by decide

/-- TV-DRW-12, TV-DRW-06. -/
theorem test_drw_wraps :
    let t := after 0xD011 (storeBytes 0x300 [0x81] (withVI [(0, 63)] 0x300))
    t.pix = setPix 63 0 true (setPix 6 0 true blankScreen) ∧ readV 0xF t = 0 ∧
    t.events = [.pixelSet 63 0 true, .pixelSet 6 0 true, .redraw] := by decide
theorem test_drw_collides :
    let t := after 0xD011
      (storeBytes 0x300 [0xC0] { withVI [] 0x300 with pix := setPix 1 0 true blankScreen })
    t.pix = setPix 0 0 true blankScreen ∧ readV 0xF t = 1 ∧
    t.events = [.pixelSet 0 0 true, .pixelSet 1 0 false, .redraw] := by decide

/-- TV-TK-07 to TV-TK-09. -/
theorem test_skp :
    (after 0xE29E (setKey 7 true (withV [(2, 7)]))).pc = 0x204 ∧ (after 0xE29E (withV [(2, 7)])).pc = 0x202 ∧
    (after 0xE29E (setKey 3 true (withV [(2, 0x13)]))).pc = 0x204 := by decide
theorem test_sknp :
    (after 0xE2A1 (setKey 7 true (withV [(2, 7)]))).pc = 0x202 ∧ (after 0xE2A1 (withV [(2, 7)])).pc = 0x204 := by
  decide

/-- TV-TK-01 to TV-TK-03. -/
theorem test_timers :
    (after 0xF115 (withV [(1, 60)])).dt = 60 ∧
    readV 5 (after 0xF507 { State.reset with dt := 0x3C }) = 0x3C ∧
    (after 0xF118 (withV [(1, 5)])).st = 5 := by decide

/-- TV-TK-10, TV-TK-12. -/
theorem test_ld_k :
    let t := after 0xF10A (setKey 5 true .reset)
    t.rs = .waitingForInput ∧ t.wt = 1 ∧ t.pc = 0x202 ∧ readV 1 t = 0 ∧
    (served (.cycle 0) t).rs = .waitingForInput ∧ (served (.cycle 0) t).pc = 0x202 := by decide
theorem test_press_ends_wait :
    let t := served (.pressKey 5) (after 0xF10A .reset)
    t.rs = .running ∧ readV 1 t = 5 ∧ t.pc = 0x202 ∧ t.key[5] = true := by decide

/-! ## The other commands -/

/-- TV-TK-05, S8. -/
theorem test_tick :
    (served .tickTimers { State.reset with st := 255 }).st = 254 ∧
    (served .tickTimers { State.reset with st := 255 }).dt = 0 ∧
    (served .tickTimers { State.reset with rs := .waitingForInput, dt := 9 }).dt = 9 := by decide

/-- TV-TK-16, TV-TK-11. -/
theorem test_keys_in_other_states :
    (served (.pressKey 4) { State.reset with rs := .terminal .stackOverflow }).key[4] = true ∧
    (served (.pressKey 4) { State.reset with rs := .terminal .stackOverflow }).rs =
      .terminal .stackOverflow ∧
    (served (.releaseKey 5) (setKey 5 true .reset)).key[5] = false := by decide

/-- TV-EX-06, TV-EX-05. -/
theorem test_load_rom :
    let t := served (.loadRom [0xAA, 0xBB]) (storeBytes 0x200 [1, 2, 3] .reset)
    memAt 0x200 t = 0xAA ∧ memAt 0x201 t = 0xBB ∧ memAt 0x202 t = 3 ∧ t.response = some .ok ∧
    (served (.loadRom []) .reset).response = some .ok := by decide

/-- TV-EX-01, TV-EX-02. -/
theorem test_init_leaves_terminal :
    let t := served .init (after 0xFFFF { State.reset with dt := 3 })
    t.rs = .running ∧ memAt 0x200 t = 0 ∧ t.dt = 0 ∧ t.pc = 0x200 := by decide

/-- TV-EX-07, TV-EX-08. -/
theorem test_fetch_range : (served (.cycle 0) { State.reset with pc := 0xFFF }).rs = .terminal .addressFault := by
  decide
theorem test_accessors :
    (served .getRunState { State.reset with rs := .waitingForInput }).response =
      some (.runState .waitingForInput) ∧
    (served .getScreen .reset).response = some (.screen blankScreen) := by decide

/-- TV-EX-09, TV-EX-10. -/
theorem test_font :
    memAt 0x000 .reset = 0xF0 ∧ memAt 0x005 .reset = 0x20 ∧ memAt 0x04F .reset = 0x80 ∧
    memAt 0x050 .reset = 0 ∧ memAt 0x09B (State.initial { defaultConfig with fontBase := 0x050 }) = 0xF0 ∧
    memAt 0x0A0 (State.initial { defaultConfig with fontBase := 0x050 }) = 0 := by decide

/-! ## Witnesses: a state and operands that meet the hypotheses of a statement, clause by clause -/

theorem witness_DecodeOfEncodeIsIdentity :
    (Instr.sys 0x000).wellFormed = true ∧ (Instr.drw 0xF 0xF 0xF).wellFormed = true := by decide

theorem witness_EncodeOfDecodeIsIdentity : decode 0xFF65 = .instr (.ldVxMem 0xF) := by decide

theorem witness_TableWordsAreFetchedWords :
    0xFFFF < 0x10000 ∧ ({ State.reset with pc := 0xFFE } : State).pc.toNat ≤ 0xFFE ∧
    Memory.wf State.reset.cfg State.reset.mem = true := by decide

/-- Both forms of `cycleNext`. -/
theorem witness_cycleNext :
    Claims.cycleNext .reset none [] ∧
    Claims.cycleNext { State.reset with commands := [.cycle 0xB7, .tickTimers] } (some 0xB7) [.tickTimers] :=
  ⟨.inl ⟨rfl, rfl, rfl⟩, .inr ⟨0xB7, rfl, rfl⟩⟩

/-- A cycle whose instruction goes on, and one whose instruction faults. -/
theorem witness_StepRunsDecodedInstruction :
    ∃ s t u : State, Claims.cycleNext s none [] ∧ s.rs = .running ∧ s.pc.toNat ≤ 0xFFE ∧
      (Instr.jp 0x204).wellFormed = true ∧
      wordOfBytes (memAt s.pc.toNat s) (memAt (s.pc.toNat + 1) s) = encode (.jp 0x204) ∧
      exec (.jp 0x204) (Claims.inCycle s none []) = .next t ∧ (∀ kind, t.rs ≠ .terminal kind) ∧
      exec (.sys 0x123) (Claims.inCycle State.reset none []) = .next u ∧
      u.rs = .terminal .invalidOpcode :=
  ⟨placeWord 0x1204 .reset, _, _, .inl ⟨rfl, rfl, rfl⟩, rfl, by decide, by decide, by decide, rfl,
    nofun, rfl, rfl⟩

/-- The four clauses, and the two of a fetchable word. -/
theorem witness_CycleTopLevel :
    ({ State.reset with rs := .waitingForInput } : State).rs = .waitingForInput ∧
    ({ State.reset with rs := .terminal .stackOverflow } : State).rs = .terminal .stackOverflow ∧
    ({ State.reset with pc := 0xFFF } : State).pc.toNat > 0xFFE ∧
    ({ State.reset with pc := 0xFFE } : State).pc.toNat ≤ 0xFFE ∧
    decode (BitVec.ofNat 16 (Claims.wordAtPc (placeWord 0xFFFF .reset))) = .invalid .classFModifier ∧
    decode (BitVec.ofNat 16 (Claims.wordAtPc (placeWord 0x00E0 .reset))) = .instr .cls := by decide

theorem witness_FetchIsBigEndianAndBounded :
    ({ State.reset with pc := 0xFFF } : State).pc.toNat > 0xFFE ∧
    ({ State.reset with pc := 0xFFE } : State).pc.toNat ≤ 0xFFE := by decide

/-- A word of each line of R66 and one beside them. -/
theorem witness_IllegalWordsEndInInvalidOpcode :
    Claims.illegalWord defaultConfig 0x5AB1 ∧ Claims.illegalWord defaultConfig 0x8AB8 ∧
    Claims.illegalWord defaultConfig 0x9AB5 ∧ Claims.illegalWord defaultConfig 0xE19F ∧
    Claims.illegalWord defaultConfig 0xF100 ∧ Claims.illegalWord defaultConfig 0x0123 ∧
    ¬Claims.illegalWord defaultConfig 0x00E0 ∧
    ¬Claims.illegalWord { defaultConfig with sysPolicy := .nop } 0x0123 := by
  refine ⟨?_, ?_, ?_, ?_, ?_, ?_, ?_, ?_⟩ <;> unfold Claims.illegalWord <;> decide

theorem witness_SysFollowsPolicy :
    (0x0E1 : Addr) ≠ 0x0E0 ∧ (0x0E1 : Addr) ≠ 0x0EE ∧ State.reset.cfg.sysPolicy = .invalid ∧
    (State.initial { defaultConfig with sysPolicy := .nop }).cfg.sysPolicy = .nop := by decide

theorem witness_CallPushesReturnAddress :
    ({ State.reset with sp := 15 } : State).sp.val ≠ 16 ∧
    ({ State.reset with sp := 16 } : State).sp.val = 16 := by decide

theorem witness_RetPopsReturnAddress :
    State.reset.sp.val = 0 ∧ ({ State.reset with sp := 16 } : State).sp.val ≠ 0 := by decide

theorem witness_CallThenRetReturns : ({ State.reset with sp := 15 } : State).sp.val ≠ 16 := by decide

/-- A terminal state, with an operand, and a self-jump, without and with one. -/
theorem witness_StoppedStaysStopped :
    (∃ s : State, Claims.cycleNext s (some 0xB7) [] ∧ s.stopped ∧ s.rs = .terminal .addressFault) ∧
    (∃ s : State, Claims.cycleNext s none [] ∧ s.stopped ∧ s.rs = .running) ∧
    ∃ s : State, Claims.cycleNext s (some 0xB7) [.init] ∧ s.stopped ∧ s.rs = .running :=
  ⟨⟨{ State.reset with rs := .terminal .addressFault, commands := [.cycle 0xB7] },
      .inr ⟨_, rfl, rfl⟩, .inl ⟨_, rfl⟩, rfl⟩,
    ⟨placeWord 0x1200 .reset, .inl ⟨rfl, rfl, rfl⟩, .inr ⟨rfl, by decide, by decide⟩, rfl⟩,
    ⟨placeWord 0x1200 { State.reset with commands := [.cycle 0xB7, .init] },
      .inr ⟨_, rfl, rfl⟩, .inr ⟨rfl, by decide, by decide⟩, rfl⟩⟩

theorem witness_RandomIsMasked :
    ({ State.reset with rand := some 0xB7 } : State).rand = some 0xB7 ∧ State.reset.rand = none := by
  decide

theorem witness_RandomByteReachesOnlyRnd :
    ∃ t, (∀ x kk, Instr.jp 0x204 ≠ .rndVxKk x kk) ∧ exec (.jp 0x204) .reset = .next t :=
  ⟨_, nofun, rfl⟩

theorem witness_BcdStoresThreeDigits :
    (withVI [] 0x1FF).i.toNat < 0x200 ∧ 0xFFD < (withVI [] 0xFFE).i.toNat ∧
    0x200 ≤ (withVI [] 0x200).i.toNat ∧ (withVI [] 0x200).i.toNat ≤ 0xFFD ∧
    0x200 ≤ (withVI [] 0xFFD).i.toNat ∧ (withVI [] 0xFFD).i.toNat ≤ 0xFFD ∧
    Memory.wf (withVI [] 0xFFD).cfg (withVI [] 0xFFD).mem = true := by decide

theorem witness_BlockStoreWritesRegisters :
    (withVI [] 0x1FF).i.toNat < 0x200 ∧ 0xFFF < (withVI [] 0xFF1).i.toNat + (0xF : RegIdx).val ∧
    0x200 ≤ (withVI [] 0xFF0).i.toNat ∧ (withVI [] 0xFF0).i.toNat + (0xF : RegIdx).val ≤ 0xFFF ∧
    Memory.wf (withVI [] 0xFF0).cfg (withVI [] 0xFF0).mem = true := by decide

theorem witness_BlockLoadReadsRegisters :
    0xFFF < (withVI [] 0xFF1).i.toNat + (0xF : RegIdx).val ∧
    (withVI [] 0xFF0).i.toNat + (0xF : RegIdx).val ≤ 0xFFF := by decide

theorem witness_BlockStoreThenLoadRestores :
    ∃ t, Memory.wf (withVI [(0, 7)] 0x200).cfg (withVI [(0, 7)] 0x200).mem = true ∧
      0x200 ≤ (withVI [(0, 7)] 0x200).i.toNat ∧
      (withVI [(0, 7)] 0x200).i.toNat + (0xF : RegIdx).val ≤ 0xFFF ∧
      exec (.ldMemVx 0xF) (withVI [(0, 7)] 0x200) = .next t :=
  ⟨_, by decide, by decide, by decide, rfl⟩

/-- `LD [I], V1` with `I` at the next instruction (95_test_vectors.md P7). -/
theorem witness_StoreIsSeenByNextFetch :
    ∃ t, Memory.wf (withVI [(0, 0x12), (1, 8)] 0x202).cfg (withVI [(0, 0x12), (1, 8)] 0x202).mem = true ∧
      0x200 ≤ (withVI [(0, 0x12), (1, 8)] 0x202).i.toNat ∧
      (withVI [(0, 0x12), (1, 8)] 0x202).i.toNat + (1 : RegIdx).val ≤ 0xFFF ∧
      (0 : RegIdx).val + 1 ≤ (1 : RegIdx).val ∧
      (withVI [(0, 0x12), (1, 8)] 0x202).pc.toNat + 2 =
        (withVI [(0, 0x12), (1, 8)] 0x202).i.toNat + (0 : RegIdx).val ∧
      exec (.ldMemVx 1) (withVI [(0, 0x12), (1, 8)] 0x202) = .next t :=
  ⟨_, by decide, by decide, by decide, by decide, by decide, rfl⟩

/-- The sprite of TV-DRW-12: one row, its bit 0 at column 6. -/
def spriteState : State := storeBytes 0x300 [0x81] (withVI [(0, 63)] 0x300)

theorem spriteState_covers : Claims.covers spriteState 0 1 1 6 0 :=
  ⟨0, 7, by decide, by decide, by decide, by decide, by decide⟩

/-- The fault, no row at any `I`, the last row at 0xFFF; a cell covered and one not; with and without a
cell that is ON. -/
theorem witness_DrawXorsSpriteAndReportsCollision :
    ((2 : Fin 16).val ≠ 0 ∧ (withVI [] 0xFFF).i.toNat + (2 : Fin 16).val - 1 > 0xFFF) ∧
    (0 : Fin 16).val = 0 ∧ (withVI [] 0xFFE).i.toNat + (2 : Fin 16).val - 1 ≤ 0xFFF ∧
    Claims.covers spriteState 0 1 1 6 0 ∧ ¬Claims.covers spriteState 0 1 0 6 0 ∧
    pixAt 6 0 (setPix 6 0 true blankScreen) = true ∧ pixAt 6 0 spriteState.pix = false :=
  ⟨by decide, rfl, by decide, spriteState_covers, fun ⟨_, _, h, _⟩ => Nat.not_lt_zero _ h, by decide,
    by decide⟩

/-- The second drawing finds ON a cell that was OFF; a sprite of no row covers none. -/
theorem witness_DrawingTwiceRestores :
    (∃ t u, (0 : RegIdx) ≠ 0xF ∧ (1 : RegIdx) ≠ 0xF ∧ spriteState.i.toNat + (1 : Fin 16).val - 1 ≤ 0xFFF ∧
      exec (.drw 0 1 1) spriteState = .next t ∧ exec (.drw 0 1 1) t = .next u ∧
      ∃ px py, Claims.covers spriteState 0 1 1 px py ∧ pixAt px py spriteState.pix = false) ∧
    ∃ t u, exec (.drw 0 1 0) spriteState = .next t ∧ exec (.drw 0 1 0) t = .next u ∧
      ¬∃ px py, Claims.covers spriteState 0 1 0 px py ∧ pixAt px py spriteState.pix = false :=
  ⟨⟨_, _, by decide, by decide, by decide, rfl, rfl, 6, 0, spriteState_covers, by decide⟩,
    ⟨_, _, rfl, rfl, fun ⟨_, _, ⟨_, _, h, _⟩, _⟩ => Nat.not_lt_zero _ h⟩⟩

theorem witness_KeySkips :
    (readV 2 (withV [(2, 0x13)])).toNat % 16 = (3 : RegIdx).val ∧
    (setKey 3 true (withV [(2, 0x13)])).key[3] = true ∧ (withV [(2, 0x13)]).key[3] = false := by decide

theorem witness_KeyWaitEndsWithPress : ∃ t, exec (.ldVxK 1) .reset = .next t := ⟨_, rfl⟩

theorem witness_TickCountsDownWhileRunning :
    ∃ s u : State, s.commands = .tickTimers :: [] ∧ s.rs = .running ∧
      u.commands = .tickTimers :: [.init] ∧ u.rs ≠ .running :=
  ⟨{ State.reset with commands := [.tickTimers] },
    { State.reset with commands := [.tickTimers, .init], rs := .waitingForInput }, rfl, rfl, rfl, nofun⟩

theorem witness_KeyCommands :
    ∃ s t u : State, s.commands = .pressKey 0xF :: [] ∧ s.rs = .waitingForInput ∧
      t.commands = .pressKey 0 :: [] ∧ t.rs ≠ .waitingForInput ∧ u.commands = .releaseKey 5 :: [] :=
  ⟨{ State.reset with commands := [.pressKey 0xF], rs := .waitingForInput },
    { State.reset with commands := [.pressKey 0] }, { State.reset with commands := [.releaseKey 5] },
    rfl, rfl, rfl, nofun, rfl⟩

theorem witness_InitResetsEverything :
    ∃ s : State, s.commands = .init :: [] ∧ s.rs = .terminal .addressFault :=
  ⟨{ State.reset with commands := [.init], rs := .terminal .addressFault }, rfl, rfl⟩

theorem witness_LoadRomCopiesOrRefuses :
    ∃ s u : State, ∃ short long : List Byte, s.commands = .loadRom short :: [] ∧ short.length = 3584 ∧
      Memory.wf s.cfg s.mem = true ∧ u.commands = .loadRom long :: [] ∧ long.length = 3585 :=
  ⟨{ State.reset with commands := [.loadRom (List.replicate 3584 0xAA)] },
    { State.reset with commands := [.loadRom (List.replicate 3585 0xAA)] },
    List.replicate 3584 0xAA, List.replicate 3585 0xAA, rfl, List.length_replicate, rfl, rfl,
    List.length_replicate⟩

theorem witness_AccessorsArePure :
    ∃ s u : State, s.commands = .getRunState :: [] ∧ u.commands = .getScreen :: [] :=
  ⟨{ State.reset with commands := [.getRunState] }, { State.reset with commands := [.getScreen] }, rfl, rfl⟩

theorem witness_RunningWithoutRom :
    defaultConfig.sysPolicy = .invalid ∧
    ({ defaultConfig with sysPolicy := .nop } : Config).sysPolicy = .nop ∧
    Claims.cycleNext (State.initial defaultConfig) none [] ∧
    ∃ s : State, s = { State.initial defaultConfig with commands := s.commands } ∧
      Claims.cycleNext s (some 0xB7) [] :=
  ⟨rfl, rfl, .inl ⟨rfl, rfl, rfl⟩, { State.reset with commands := [.cycle 0xB7] }, rfl, .inr ⟨_, rfl, rfl⟩⟩

theorem witness_FaultsChangeOnlyRunState :
    ∃ t u, State.reset.rs = .running ∧ exec .ret .reset = .next t ∧ t.rs = .terminal .stackUnderflow ∧
      Claims.cycleNext { State.reset with pc := 0xFFF } none [] ∧
      step { State.reset with pc := 0xFFF } = .next u ∧ u.rs = .terminal .addressFault :=
  ⟨_, _, rfl, rfl, rfl, .inl ⟨rfl, rfl, rfl⟩, rfl, rfl⟩

/-- Every fault of R182 in a cycle, at the boundary of its condition, and none just beside it. -/
theorem test_cycleFault_at_boundaries :
    Claims.cycleFault { State.reset with pc := 0xFFF } = some .addressFault ∧
    Claims.cycleFault (placeWord 0x00E0 { State.reset with pc := 0xFFE }) = none ∧
    Claims.cycleFault (placeWord 0x5AB1 .reset) = some .invalidOpcode ∧
    Claims.cycleFault (placeWord 0x2300 { State.reset with sp := 16 }) = some .stackOverflow ∧
    Claims.cycleFault (placeWord 0x2300 { State.reset with sp := 15 }) = none ∧
    Claims.cycleFault (placeWord 0x00EE .reset) = some .stackUnderflow ∧
    Claims.cycleFault (placeWord 0xF033 { State.reset with i := 0xFFE }) = some .addressFault ∧
    Claims.cycleFault (placeWord 0xF033 { State.reset with i := 0xFFD }) = none ∧
    Claims.cycleFault (placeWord 0xFF55 { State.reset with i := 0x1FF }) = some .writeProtectFault ∧
    Claims.cycleFault (placeWord 0xFF55 { State.reset with i := 0xFF0 }) = none ∧
    Claims.cycleFault (placeWord 0xFF65 { State.reset with i := 0xFF1 }) = some .addressFault ∧
    Claims.cycleFault (placeWord 0xD010 { State.reset with i := 0xFFFF }) = none := by decide

/-- Every command has a step; a cycle that waits, one that runs on and one that faults. -/
theorem witness_RunStateTransitions :
    (∀ c : Command, c = .init ∨ c = .pressKey 3 ∨ c = .loadRom [1] ∨ c = .tickTimers ∨ c = .releaseKey 3 ∨
      c = .getRunState ∨ c = .getScreen →
      ∃ t, step { State.reset with commands := [c] } = .next t) ∧
    (∃ t x, step (placeWord 0xF10A .reset) = .next t ∧ Claims.cycleFault (placeWord 0xF10A .reset) = none ∧
      decode (BitVec.ofNat 16 (Claims.wordAtPc (placeWord 0xF10A .reset))) = .instr (.ldVxK x)) ∧
    (∃ t, step (placeWord 0x00E0 .reset) = .next t ∧ Claims.cycleFault (placeWord 0x00E0 .reset) = none ∧
      ¬∃ x, decode (BitVec.ofNat 16 (Claims.wordAtPc (placeWord 0x00E0 .reset))) = .instr (.ldVxK x)) ∧
    (∃ t, step { State.reset with rs := .waitingForInput } = .next t) ∧
    ∃ t, step (placeWord 0x00EE .reset) = .next t ∧ (∀ kind, (placeWord 0x00EE .reset).rs ≠ .terminal kind) ∧
      Claims.cycleFault (placeWord 0x00EE .reset) = some .stackUnderflow ∧
      t.rs = .terminal .stackUnderflow := by
  refine ⟨fun c h => ?_, ⟨_, 1, rfl, by decide, by decide⟩, ⟨_, rfl, by decide, fun ⟨_, h⟩ => ?_⟩, ⟨_, rfl⟩,
    ⟨_, rfl, nofun, by decide, rfl⟩⟩
  · rcases h with rfl | rfl | rfl | rfl | rfl | rfl | rfl <;> exact ⟨_, rfl⟩
  · cases h

/-- A terminal state in which a command that is not `init` is served. -/
theorem witness_TerminalStatesAreFrozen :
    ∀ c : Command, c = .pressKey 3 ∨ c = .loadRom [1] ∨ c = .cycle 0 ∨ c = .getRunState ∨ c = .getScreen →
      ∃ s t : State, s.commands = [c] ∧ s.rs = .terminal .addressFault ∧ step s = .next t ∧
        ∀ cs, s.commands ≠ .init :: cs := by
  intro c h
  refine ⟨{ State.reset with commands := [c], rs := .terminal .addressFault }, ?_⟩
  rcases h with rfl | rfl | rfl | rfl | rfl <;> exact ⟨_, rfl, rfl, rfl, nofun⟩

theorem witness_ProgramCounterPolicy :
    ∃ t u, State.reset.rs = .running ∧ State.reset.pc.toNat ≤ 0xFFE ∧
      exec .ret .reset = .next t ∧ (∃ kind, t.rs = .terminal kind) ∧
      exec (.jpV0 0xFFF) (withV [(0, 0xFF)]) = .next u ∧ ∀ kind, u.rs ≠ .terminal kind :=
  ⟨_, _, rfl, by decide, rfl, ⟨_, rfl⟩, rfl, nofun⟩

/-- A call that does not fault; a cycle that waits, one above 0xFFE, one at an invalid word, one whose
instruction faults, and one that calls. -/
theorem witness_ProgramCounterPolicy_others :
    ∃ t u w x y z, exec (.call 0x300) { State.reset with sp := 15 } = .next t ∧
      (∀ kind, t.rs ≠ .terminal kind) ∧
      step { State.reset with rs := .waitingForInput } = .next u ∧
      step { State.reset with pc := 0xFFF } = .next w ∧
      Claims.cycleFault { State.reset with pc := 0xFFF } = some .addressFault ∧
      step (placeWord 0xFFFF .reset) = .next x ∧
      Claims.cycleFault (placeWord 0xFFFF .reset) = some .invalidOpcode ∧
      step (placeWord 0x00EE .reset) = .next y ∧
      Claims.cycleFault (placeWord 0x00EE .reset) = some .stackUnderflow ∧
      step (placeWord 0x2300 { State.reset with sp := 15 }) = .next z ∧
      Claims.cycleFault (placeWord 0x2300 { State.reset with sp := 15 }) = none :=
  ⟨_, _, _, _, _, _, rfl, nofun, rfl, rfl, by decide, rfl, by decide, rfl, by decide, rfl, by decide⟩

theorem witness_RegistersChangeOnlyAsDestinations :
    ∃ t, exec (.addVxVy 1 2) .reset = .next t ∧ ¬Claims.mayWriteReg (.addVxVy 1 2) 2 :=
  ⟨_, rfl, by unfold Claims.mayWriteReg; decide⟩

/-- `LD Vx, DT` is none of the instructions any clause excepts. -/
theorem witness_ComponentsChangeOnlyByTheirInstructions :
    ∃ t, exec (.ldVxDt 1) .reset = .next t ∧ (∀ nnn, Instr.ldVxDt 1 ≠ .ldI nnn) ∧
      (∀ x, Instr.ldVxDt 1 ≠ .addIVx x) ∧ (∀ x, Instr.ldVxDt 1 ≠ .ldFVx x) ∧
      (∀ nnn, Instr.ldVxDt 1 ≠ .call nnn) ∧ Instr.ldVxDt 1 ≠ .ret ∧ Instr.ldVxDt 1 ≠ .cls ∧
      (∀ x y n, Instr.ldVxDt 1 ≠ .drw x y n) ∧ (∀ x, Instr.ldVxDt 1 ≠ .ldDtVx x) ∧
      (∀ x, Instr.ldVxDt 1 ≠ .ldStVx x) ∧ ∀ x, Instr.ldVxDt 1 ≠ .ldVxK x :=
  ⟨_, rfl, nofun, nofun, nofun, nofun, nofun, nofun, nofun, nofun, nofun, nofun⟩

/-- The last of 16 stored bytes, at 0xFFF, changes. -/
theorem witness_StoresReachOnlyTheirBytes :
    ∃ t, Memory.wf (withVI [(0xF, 7)] 0xFF0).cfg (withVI [(0xF, 7)] 0xFF0).mem = true ∧
      exec (.ldMemVx 0xF) (withVI [(0xF, 7)] 0xFF0) = .next t ∧
      memAt 0xFFF t ≠ memAt 0xFFF (withVI [(0xF, 7)] 0xFF0) :=
  ⟨_, by decide, rfl, by decide⟩

theorem placed_inv : (placeWord 0x2200 { State.reset with sp := 3 }).Inv :=
  ⟨by decide, by decide, by decide, by decide, by decide, rfl⟩

theorem witness_EveryStepKeepsInv :
    ∃ s t : State, s.Inv ∧ step s = .next t ∧ t.sp = 4 := ⟨_, _, placed_inv, rfl, rfl⟩

theorem witness_ReservedRegionIsConstant :
    ∃ s t : State, s.Inv ∧ Host.Core.run core 2 s = .next t ∧ t.sp = 5 := ⟨_, _, placed_inv, rfl, rfl⟩

theorem witness_EqualContentsAreEqualMemory :
    Memory.wf defaultConfig [(0x200, 7), (0x300, 8)] = true ∧
    Memory.write defaultConfig (Memory.write defaultConfig [] 0x300 8) 0x200 7 = [(0x200, 7), (0x300, 8)] := by
  decide

theorem witness_EventParametersChangeOnlyEvents : ∃ t, step (placeWord 0x00E0 .reset) = .next t := ⟨_, rfl⟩

theorem witness_SoundTimerIsUnreadable :
    ∃ t, (∀ x, Instr.ldVxDt 1 ≠ .ldStVx x) ∧ exec (.ldVxDt 1) .reset = .next t := ⟨_, nofun, rfl⟩

end Sys2Proof.Tests
end

/-! ## Every step answers a next state (spec/00_scope.md R4, R9) -/

namespace Sys2Proof.Machine

/-- A `cycle` wraps the work of `runCycle`, whose end is always a next state, in `endCycle`. -/
theorem cycle_answers (rand : Option Byte) (s : State) : ∃ t, cycle rand s = .next t := by
  obtain ⟨t, ht⟩ := runCycle_answers (beginCycle rand s)
  exact ⟨endCycle t, congrArg (onNext endCycle) ht⟩

/-- Every command but `cycle` answers a next state by definition; `cycle_answers` is the one real case. -/
theorem serve_answers (c : Command) (s : State) : ∃ t, serve c s = .next t := by
  cases c with
  | cycle rand => exact cycle_answers (some rand) s
  | init | loadRom | tickTimers | pressKey | releaseKey | getRunState | getScreen => exact ⟨_, rfl⟩

/-- Settles O42, by whether the environment's list of commands is empty. -/
theorem everyStepAnswersNext : Obligations.EveryStepAnswersNext := by
  intro s
  cases h : s.commands with
  | nil =>
    rw [step_of_nil h]
    exact cycle_answers none s
  | cons c cs =>
    rw [step_of_cons h]
    exact serve_answers c { s with commands := cs }

end Sys2Proof.Machine

/-! ## What an instruction that raises no fault leaves (spec/10_state.md, 60_exceptions.md R182) -/

namespace Sys2Proof.Machine

/-- The state after an instruction that raises no fault, as one update of the state before it. The two
stack instructions are written without the check that `exec` makes of `SP`. -/
def completed (i : Instr) (s : State) : State :=
  match i with
  | .sys _ => advance s
  | .cls => advance (emitRedraw { s with pix := blankScreen })
  | .ret => { s with pc := s.stack[s.sp.val - 1]'(by omega), sp := ⟨s.sp.val - 1, by omega⟩ }
  | .jp nnn => jumpTo (addrWord nnn) s
  | .call nnn =>
    jumpTo (addrWord nnn)
      { s with stack := s.stack.setIfInBounds s.sp.val (s.pc + 2), sp := Fin.ofNat 17 (s.sp.val + 1) }
  | .seVxKk x kk => skipIf (readV x s == kk) s
  | .sneVxKk x kk => skipIf (readV x s != kk) s
  | .seVxVy x y => skipIf (readV x s == readV y s) s
  | .ldVxKk x kk => advance (writeV x kk s)
  | .addVxKk x kk => advance (writeV x (sumByte (readV x s) kk) s)
  | .ldVxVy x y => advance (writeV x (readV y s) s)
  | .orVxVy x y => advance (writeV x (readV x s ||| readV y s) s)
  | .andVxVy x y => advance (writeV x (readV x s &&& readV y s) s)
  | .xorVxVy x y => advance (writeV x (readV x s ^^^ readV y s) s)
  | .addVxVy x y =>
    advance (writeResultThenFlag x (sumByte (readV x s) (readV y s)) (carry (readV x s) (readV y s)) s)
  | .subVxVy x y =>
    advance (writeResultThenFlag x (diffByte (readV x s) (readV y s))
      (noBorrow (readV x s) (readV y s)) s)
  | .shrVx x _ => advance (writeResultThenFlag x (halfByte (readV x s)) (lowBit (readV x s)) s)
  | .subnVxVy x y =>
    advance (writeResultThenFlag x (diffByte (readV y s) (readV x s))
      (noBorrow (readV y s) (readV x s)) s)
  | .shlVx x _ => advance (writeResultThenFlag x (doubleByte (readV x s)) (highBit (readV x s)) s)
  | .sneVxVy x y => skipIf (readV x s != readV y s) s
  | .ldI nnn => advance { s with i := addrWord nnn }
  | .jpV0 nnn => jumpTo (addrWord nnn + byteWord (readV 0 s)) s
  | .rndVxKk x kk => advance (writeV x (randomByte s &&& kk) (consumeRandom s))
  | .drw x y n =>
    advance (emitRedraw
      (writeV flagReg (flagByte (drawSprite (drawnCells x y n s) s).collision)
        { s with
          pix := (drawSprite (drawnCells x y n s) s).pix
          events := (drawSprite (drawnCells x y n s) s).events }))
  | .skpVx x => skipIf (keyAt (lowNibble (readV x s)) s) s
  | .sknpVx x => skipIf (!keyAt (lowNibble (readV x s)) s) s
  | .ldVxDt x => advance (writeV x s.dt s)
  | .ldVxK x => advance { s with wt := x, rs := .waitingForInput }
  | .ldDtVx x => advance { s with dt := readV x s }
  | .ldStVx x => advance { s with st := readV x s }
  | .addIVx x => advance { s with i := s.i + byteWord (readV x s) }
  | .ldFVx x => advance { s with i := glyphAddr s.cfg (lowNibble (readV x s)) }
  | .ldBVx x => advance (storeBytes (memBase s) (bcdDigits (readV x s)) s)
  | .ldMemVx x => advance (storeBytes (memBase s) (lowRegs x s) s)
  | .ldVxMem x => advance { s with v := setRegs s.v 0 (loadBytes (memBase s) (x.val + 1) s) }

/-! ### The check each checked instruction makes is the fault the spec names for it -/

theorem checkSpan_read_memBase (n : Nat) (s : State) :
    checkSpan checkRead (memBase s) n =
      if n ≠ 0 ∧ s.i.toNat + n - 1 > 0xFFF then some .addressFault else none := by
  rw [checkSpan_read, memBase, ← ite_not]
  exact if_congr (by omega) rfl rfl

theorem checkSpan_write_memBase {n : Nat} (hn : n < 16) (s : State) :
    checkSpan checkWrite (memBase s) (n + 1) =
      if s.i.toNat < 0x200 then some .writeProtectFault
      else if s.i.toNat + n > 0xFFF then some .addressFault else none := by
  rw [checkSpan_write (Nat.succ_ne_zero n) hn, memBase, ← ite_not (_ ≤ _)]
  exact if_congr Iff.rfl rfl (if_congr (by omega) rfl rfl)

theorem popToPc_eq (s : State) :
    popToPc s =
      unlessFault (if s.sp.val = 0 then some .stackUnderflow else none) s (.next (completed .ret s)) := by
  by_cases h : s.sp.val = 0
  · rw [popToPc_of_empty h, if_pos h, unlessFault_some]
  · rw [popToPc_of_used (Nat.pos_of_ne_zero h), if_neg h, unlessFault_none]
    rfl

theorem execCall_eq (nnn : Addr) (s : State) :
    execCall nnn s =
      unlessFault (if s.sp.val = 16 then some .stackOverflow else none) s
        (.next (completed (.call nnn) s)) := by
  by_cases h : s.sp.val = 16
  · rw [execCall, pushThen_of_full h, if_pos h, unlessFault_some]
  · have hroom : s.sp.val < 16 := by omega
    have hsp : (⟨s.sp.val + 1, by omega⟩ : Fin 17) = Fin.ofNat 17 (s.sp.val + 1) :=
      Fin.ext (Nat.mod_eq_of_lt (by omega)).symm
    have hstack : s.stack.set s.sp.val (s.pc + 2) = s.stack.setIfInBounds s.sp.val (s.pc + 2) :=
      Vector.ext fun k hk => by rw [Vector.getElem_set, Vector.getElem_setIfInBounds]
    rw [execCall, pushThen_of_room hroom, if_neg h, unlessFault_none, hsp, hstack, completed]

/-- What an instruction can do, with its fault condition: it raises the fault that R182 names for it, or
it completes. -/
theorem exec_eq (i : Instr) (s : State) :
    exec i s = unlessFault (Claims.instrFault i s) s (.next (completed i s)) := by
  cases i with
  | sys nnn => cases h : s.cfg.sysPolicy <;> simp [exec, execSys, Claims.instrFault, completed, h]
  | ret => exact popToPc_eq s
  | call nnn => exact execCall_eq nnn s
  | drw x y n => exact congrArg (unlessFault · s _) (checkSpan_read_memBase n.val s)
  | ldBVx x => exact congrArg (unlessFault · s _) (checkSpan_write_memBase (by decide) s)
  | ldMemVx x => exact congrArg (unlessFault · s _) (checkSpan_write_memBase x.isLt s)
  | ldVxMem x =>
    refine congrArg (unlessFault · s _) ((checkSpan_read_memBase (x.val + 1) s).trans ?_)
    simp [Claims.instrFault, ← Nat.add_assoc]
  | _ => rfl

theorem exec_of_noFault {i : Instr} {s : State} (h : Claims.instrFault i s = none) :
    exec i s = .next (completed i s) := by rw [exec_eq, h, unlessFault_none]

theorem exec_of_fault {i : Instr} {s : State} {kind : FaultKind}
    (h : Claims.instrFault i s = some kind) : exec i s = .next { s with rs := .terminal kind } := by
  rw [exec_eq, h, unlessFault_some, raise]

/-- `exec_eq` as an inversion. -/
theorem exec_cases {i : Instr} {s t : State} (h : exec i s = .next t) :
    (∃ kind, Claims.instrFault i s = some kind ∧ t = { s with rs := .terminal kind }) ∨
      Claims.instrFault i s = none ∧ t = completed i s := by
  cases hf : Claims.instrFault i s with
  | some kind => exact .inl ⟨kind, rfl, Host.Outcome.next.inj (h.symm.trans (exec_of_fault hf))⟩
  | none => exact .inr ⟨rfl, Host.Outcome.next.inj (h.symm.trans (exec_of_noFault hf))⟩

/-! ### The frame of an instruction that completes -/

section
variable {i : Instr} (s : State)

theorem completed_i (h : ∀ nnn, i ≠ .ldI nnn) (h' : ∀ x, i ≠ .addIVx x) (h'' : ∀ x, i ≠ .ldFVx x) :
    (completed i s).i = s.i := by
  cases i with
  | ldI nnn => exact absurd rfl (h nnn)
  | addIVx x => exact absurd rfl (h' x)
  | ldFVx x => exact absurd rfl (h'' x)
  | _ => simp [completed]

theorem completed_stack (h : ∀ nnn, i ≠ .call nnn) : (completed i s).stack = s.stack := by
  cases i with
  | call nnn => exact absurd rfl (h nnn)
  | _ => simp [completed]

theorem completed_sp (h : ∀ nnn, i ≠ .call nnn) (h' : i ≠ .ret) : (completed i s).sp = s.sp := by
  cases i with
  | call nnn => exact absurd rfl (h nnn)
  | ret => exact absurd rfl h'
  | _ => simp [completed]

theorem completed_pix (h : i ≠ .cls) (h' : ∀ x y n, i ≠ .drw x y n) :
    (completed i s).pix = s.pix := by
  cases i with
  | cls => exact absurd rfl h
  | drw x y n => exact absurd rfl (h' x y n)
  | _ => simp [completed]

theorem completed_events (h : i ≠ .cls) (h' : ∀ x y n, i ≠ .drw x y n) :
    (completed i s).events = s.events := by
  cases i with
  | cls => exact absurd rfl h
  | drw x y n => exact absurd rfl (h' x y n)
  | _ => simp [completed]

theorem completed_dt (h : ∀ x, i ≠ .ldDtVx x) : (completed i s).dt = s.dt := by
  cases i with
  | ldDtVx x => exact absurd rfl (h x)
  | _ => simp [completed]

theorem completed_st (h : ∀ x, i ≠ .ldStVx x) : (completed i s).st = s.st := by
  cases i with
  | ldStVx x => exact absurd rfl (h x)
  | _ => simp [completed]

theorem completed_wt (h : ∀ x, i ≠ .ldVxK x) : (completed i s).wt = s.wt := by
  cases i with
  | ldVxK x => exact absurd rfl (h x)
  | _ => simp [completed]

theorem completed_mem (h : ∀ x, i ≠ .ldBVx x) (h' : ∀ x, i ≠ .ldMemVx x) :
    (completed i s).mem = s.mem := by
  cases i with
  | ldBVx x => exact absurd rfl (h x)
  | ldMemVx x => exact absurd rfl (h' x)
  | _ => simp [completed]

end

@[simp] theorem completed_key (i : Instr) (s : State) : (completed i s).key = s.key := by
  cases i <;> simp [completed]

@[simp] theorem completed_cfg (i : Instr) (s : State) : (completed i s).cfg = s.cfg := by
  cases i <;> simp [completed]

@[simp] theorem completed_commands (i : Instr) (s : State) :
    (completed i s).commands = s.commands := by
  cases i <;> simp [completed]

/-- Settles O48: a fault changes only `RS`, and an instruction that completes leaves each component by
its frame lemma. -/
theorem componentsChangeOnlyByTheirInstructions :
    Obligations.ComponentsChangeOnlyByTheirInstructions := by
  intro i s t h
  obtain ⟨kind, -, rfl⟩ | ⟨-, rfl⟩ := exec_cases h
  · simp
  · exact ⟨completed_i s, completed_stack s, completed_sp s,
      fun hcls hdrw => ⟨completed_pix s hcls hdrw, completed_events s hcls hdrw⟩, completed_dt s,
      completed_st s, completed_wt s, completed_key i s, completed_cfg i s, completed_commands i s⟩

/-! ### General registers -/

/-- A block load leaves the registers above its last one. -/
theorem readV_completed_ldVxMem {x j : RegIdx} (s : State) (h : ¬j ≤ x) :
    readV j (completed (.ldVxMem x) s) = readV j s := by
  simp only [readV, completed, advance_v, setRegs_getElem, loadBytes_length]
  exact dif_neg fun hj => h (Fin.le_def.2 (by omega))

/-- `DRW` leaves the registers other than VF. -/
theorem readV_completed_drw {x y j : RegIdx} {n : Fin 16} (s : State) (h : j ≠ flagReg) :
    readV j (completed (.drw x y n) s) = readV j s := by
  simp only [completed, readV_advance, readV_emitRedraw, readV_writeV, if_neg h]
  rfl

theorem readV_completed {i : Instr} {j : RegIdx} (s : State) (h : ¬Claims.mayWriteReg i j) :
    readV j (completed i s) = readV j s := by
  cases i with
  | ldVxMem x => exact readV_completed_ldVxMem s h
  | drw x y n => exact readV_completed_drw s h
  | ldVxKk | addVxKk | rndVxKk | ldVxDt | ldVxVy | orVxVy | andVxVy | xorVxVy =>
    simp [completed, if_neg (show ¬_ = _ from h)]
  | addVxVy | subVxVy | shrVx | subnVxVy | shlVx =>
    obtain ⟨hx, hflag⟩ := not_or.1 h
    simp [completed, if_neg hx, if_neg hflag]
  | _ => exact readV_congr (by simp [completed])

/-- Settles O47: a fault changes only `RS`, and an instruction that completes writes the registers that
`mayWriteReg` lists. -/
theorem registersChangeOnlyAsDestinations : Obligations.RegistersChangeOnlyAsDestinations := by
  intro i s t h j hj
  obtain ⟨kind, -, rfl⟩ | ⟨-, rfl⟩ := exec_cases h
  · rfl
  · exact readV_completed s hj

/-! ### The sound timer -/

theorem completed_with_st {i : Instr} (s : State) (b : Byte) (h : ∀ x, i ≠ .ldStVx x) :
    completed i { s with st := b } = { completed i s with st := b } := by
  cases i with
  | ldStVx x => exact absurd rfl (h x)
  | _ => simp only [completed, skipIf_eq, emitRedraw_eq, consumeRandom_eq] <;> rfl

/-- Settles O56: neither the fault condition nor the completed state reads `ST`. -/
theorem soundTimerIsUnreadable : Obligations.SoundTimerIsUnreadable := by
  intro i s t b hi h
  obtain ⟨kind, hf, rfl⟩ | ⟨hf, rfl⟩ := exec_cases h
  · exact exec_of_fault hf
  · have hf' : Claims.instrFault i { s with st := b } = none := hf
    rw [exec_of_noFault hf', completed_with_st s b hi]

/-! ## The program counter (spec/10_state.md R15) -/

theorem advance_pc_toNat {s : State} (hp : s.pc.toNat ≤ 0xFFE) :
    (advance s).pc.toNat = s.pc.toNat + 2 := by
  simp only [advance_pc]
  bv_omega

theorem skipIf_pc_toNat {s : State} (c : Bool) (hp : s.pc.toNat ≤ 0xFFE) :
    (skipIf c s).pc.toNat = s.pc.toNat + if c then 4 else 2 := by
  cases c <;> simp only [skipIf_pc] <;> simp <;> bv_omega

/-- The sum of `JP V0, nnn` does not wrap. -/
theorem addrWord_add_byteWord_toNat (nnn : Addr) (b : Byte) :
    (addrWord nnn + byteWord b).toNat = nnn.toNat + b.toNat := by
  have := nnn.isLt
  have := b.isLt
  rw [BitVec.toNat_add, addrWord_toNat, byteWord_toNat]
  omega

/-- An instruction that completes leaves `PC` at the value of the policy table. -/
theorem completed_pc {i : Instr} {s : State} (hf : Claims.instrFault i s = none)
    (hp : s.pc.toNat ≤ 0xFFE) : (completed i s).pc.toNat = Claims.nextPc i s := by
  cases i with
  | jp nnn => exact addrWord_toNat nnn
  | call nnn => exact addrWord_toNat nnn
  | jpV0 nnn => exact addrWord_add_byteWord_toNat nnn (readV 0 s)
  | ret =>
    have hsp : s.sp.val ≠ 0 := by simpa [Claims.instrFault] using hf
    simp [completed, Claims.nextPc, hsp]
  | seVxKk | seVxVy | sneVxKk | sneVxVy | skpVx =>
    exact (skipIf_pc_toNat _ hp).trans (by simp [Claims.nextPc])
  | sknpVx x =>
    refine (skipIf_pc_toNat _ hp).trans ?_
    cases h : keyAt (lowNibble (readV x s)) s <;> simp [Claims.nextPc, h]
  | cls | drw | rndVxKk =>
    exact (advance_pc_toNat (by simpa using hp)).trans (by simp [Claims.nextPc])
  | _ => exact advance_pc_toNat hp

theorem completed_call_slot (nnn : Addr) (s : State) (j : Fin 16) (hj : j.val = s.sp.val) :
    (completed (.call nnn) s).stack[j.val] = s.pc + 2 := by
  simp [completed, hj]

/-! ## What the work of a `cycle` can do (60_exceptions.md R181, R185) -/

theorem fetch_eq_wordAtPc {s : State} (h : s.pc.toNat ≤ 0xFFE) :
    fetch s = some (BitVec.ofNat 16 (Claims.wordAtPc s)) := by
  rw [fetch_of_le h, Claims.wordAtPc, ← wordOfBytes_toNat, BitVec.ofNat_toNat, BitVec.setWidth_eq]

theorem instrFault_ne_unsupported (i : Instr) (s : State) :
    Claims.instrFault i s ≠ some .unsupportedOpcode := by
  unfold Claims.instrFault
  repeat' split
  all_goals simp

theorem cycleFault_of_instr {s : State} {i : Instr} (hp : s.pc.toNat ≤ 0xFFE)
    (hd : decode (BitVec.ofNat 16 (Claims.wordAtPc s)) = .instr i) :
    Claims.cycleFault s = Claims.instrFault i s := by
  simp only [Claims.cycleFault, if_neg (Nat.not_lt.2 hp), hd]

theorem cycleFault_of_invalid {s : State} {why : DecodeError} (hp : s.pc.toNat ≤ 0xFFE)
    (hd : decode (BitVec.ofNat 16 (Claims.wordAtPc s)) = .invalid why) :
    Claims.cycleFault s = some .invalidOpcode := by
  simp only [Claims.cycleFault, if_neg (Nat.not_lt.2 hp), hd]

/-- Outside `RUNNING` the work of a `cycle` changes nothing; in `RUNNING` it raises the fault of
`cycleFault`, or the instruction at `PC` completes. -/
theorem runCycle_cases {s t : State} (h : runCycle s = .next t) :
    (s.rs ≠ .running ∧ t = s) ∨
    (s.rs = .running ∧ ∃ kind, Claims.cycleFault s = some kind ∧ kind ≠ .unsupportedOpcode ∧
      t = { s with rs := .terminal kind }) ∨
    (s.rs = .running ∧ Claims.cycleFault s = none ∧ ∃ i, s.pc.toNat ≤ 0xFFE ∧
      decode (BitVec.ofNat 16 (Claims.wordAtPc s)) = .instr i ∧
      Claims.instrFault i s = none ∧ t = completed i s) := by
  cases hr : s.rs with
  | waitingForInput =>
    rw [runCycle_of_waiting hr] at h
    exact .inl ⟨nofun, (Host.Outcome.next.inj h).symm⟩
  | terminal kind =>
    rw [runCycle_of_terminal hr] at h
    exact .inl ⟨nofun, (Host.Outcome.next.inj h).symm⟩
  | running =>
    right
    by_cases hp : s.pc.toNat ≤ 0xFFE
    · cases hd : decode (BitVec.ofNat 16 (Claims.wordAtPc s)) with
      | invalid why =>
        rw [runCycle_of_invalid hr (fetch_eq_wordAtPc hp) hd, raise] at h
        exact .inl ⟨rfl, _, cycleFault_of_invalid hp hd, nofun, (Host.Outcome.next.inj h).symm⟩
      | instr i =>
        rw [runCycle_of_instr hr (fetch_eq_wordAtPc hp) hd] at h
        obtain ⟨kind, hf, ht⟩ | ⟨hf, ht⟩ := exec_cases h
        · refine .inl ⟨rfl, kind, (cycleFault_of_instr hp hd).trans hf, ?_, ht⟩
          rintro rfl
          exact instrFault_ne_unsupported i s hf
        · exact .inr ⟨rfl, (cycleFault_of_instr hp hd).trans hf, i, hp, rfl, hf, ht⟩
    · have hp' : s.pc.toNat > 0xFFE := Nat.lt_of_not_le hp
      rw [runCycle_of_unfetchable hr hp', raise] at h
      exact .inl ⟨rfl, _, if_pos hp', nofun, (Host.Outcome.next.inj h).symm⟩

/-- A `cycle` answers its work, with the response given and the operand gone. -/
theorem cycle_next {rand : Option Byte} {s t : State} (h : cycle rand s = .next t) :
    ∃ u, runCycle (beginCycle rand s) = .next u ∧ t = endCycle u := by
  obtain ⟨u, hu⟩ := runCycle_answers (beginCycle rand s)
  refine ⟨u, hu, ?_⟩
  rw [cycle, hu] at h
  exact (Host.Outcome.next.inj h).symm

theorem step_of_cycleNext {s : State} {rand : Option Byte} {cs : List Command}
    (h : Claims.cycleNext s rand cs) : step s = cycle rand { s with commands := cs } := by
  obtain ⟨hc, rfl, rfl⟩ | ⟨b, hc, rfl⟩ := h
  · rw [step_of_nil hc, ← hc]
  · exact step_of_cons hc

/-- R15 for one instruction. -/
theorem exec_pc {i : Instr} {s t : State} (hr : s.rs = .running) (hp : s.pc.toNat ≤ 0xFFE)
    (h : exec i s = .next t) :
    ((∃ kind, t.rs = .terminal kind) → t.pc = s.pc) ∧
    ((∀ kind, t.rs ≠ .terminal kind) → t.pc.toNat = Claims.nextPc i s ∧
      ∀ nnn, i = .call nnn → ∀ j : Fin 16, j.val = s.sp.val → t.stack[j.val] = s.pc + 2) := by
  refine ⟨fun ⟨kind, hk⟩ => ?_, fun hlive => ?_⟩
  · obtain ⟨hrun, -⟩ | ⟨hwait, -⟩ | ⟨kind', rfl, -⟩ := exec_ends h hr
    · simp [hrun] at hk
    · simp [hwait] at hk
    · rfl
  · obtain ⟨kind, -, rfl⟩ | ⟨hf, rfl⟩ := exec_cases h
    · exact absurd rfl (hlive kind)
    · refine ⟨completed_pc hf hp, ?_⟩
      rintro nnn rfl j hj
      exact completed_call_slot nnn s j hj

/-- R15 for the work of a `cycle`. -/
theorem runCycle_pc {s t : State} (h : runCycle s = .next t) :
    (s.rs ≠ .running → t.pc = s.pc) ∧
    (s.rs = .running →
      (∀ kind, Claims.cycleFault s = some kind → t.pc = s.pc) ∧
      (Claims.cycleFault s = none →
        ∃ i, decode (BitVec.ofNat 16 (Claims.wordAtPc s)) = .instr i ∧
          t.pc.toNat = Claims.nextPc i s ∧
          ∀ nnn, i = .call nnn → ∀ j : Fin 16, j.val = s.sp.val → t.stack[j.val] = s.pc + 2)) := by
  obtain ⟨hr, rfl⟩ | ⟨hr, kind, hf, -, rfl⟩ | ⟨hr, hf, i, hp, hd, hif, rfl⟩ := runCycle_cases h
  · exact ⟨fun _ => rfl, fun hr' => absurd hr' hr⟩
  · exact ⟨fun _ => rfl, fun _ => ⟨fun _ _ => rfl, fun hn => by simp [hf] at hn⟩⟩
  · refine ⟨fun hr' => absurd hr hr', fun _ => ⟨fun kind hk => by simp [hf] at hk, fun _ => ?_⟩⟩
    refine ⟨i, hd, completed_pc hif hp, ?_⟩
    rintro nnn rfl j hj
    exact completed_call_slot nnn s j hj

/-- Settles O46: `exec_pc` for the instruction, and `runCycle_pc` for the `cycle`, whose begin and end
touch neither `PC` nor the stack. -/
theorem programCounterPolicy : Obligations.ProgramCounterPolicy := by
  refine ⟨fun i s t hr hp h => exec_pc hr hp h, fun s t rand cs hc h => ?_⟩
  rw [step_of_cycleNext hc] at h
  obtain ⟨u, hu, rfl⟩ := cycle_next h
  have hpc := runCycle_pc hu
  exact hpc

/-! ## Equal contents are equal memory (10_state.md R18) -/

/-- Settles O53: both lists are canonical from address 0, where `eq_of_read_from` compares them. -/
theorem equalContentsAreEqualMemory : Obligations.EqualContentsAreEqualMemory :=
  fun _ _ _ hm hm' h => Memory.eq_of_read_from hm hm' h

/-! ## The invariant (spec/10_state.md R16, 60_exceptions.md R197, R201) -/

theorem initial_inv (cfg : Config) : (State.initial cfg).Inv where
  memCanonical := rfl
  reservedKept := nofun
  pcBound := by simp [State.initial]
  stackBound j := by simp [State.initial]
  neverUnsupported := nofun
  noOperandHeld := rfl

/-- Settles O51: memory lists nothing after `init`, whatever the font. -/
theorem invHoldsAfterInit : Obligations.InvHoldsAfterInit :=
  ⟨initial_inv defaultConfig, initial_inv⟩

/-- The invariant speaks of parameters, memory, `PC`, stack, `RS` and the operand only. -/
theorem State.Inv.of_same {s t : State} (h : s.Inv) (hcfg : t.cfg = s.cfg) (hmem : t.mem = s.mem)
    (hpc : t.pc = s.pc) (hstack : t.stack = s.stack) (hrs : t.rs ≠ .terminal .unsupportedOpcode)
    (hrand : t.rand = none) : t.Inv where
  memCanonical := hcfg ▸ hmem ▸ h.memCanonical
  reservedKept := hmem ▸ h.reservedKept
  pcBound := hpc ▸ h.pcBound
  stackBound := hstack ▸ h.stackBound
  neverUnsupported := hrs
  noOperandHeld := hrand

/-- A store from 0x200 up that ends below 0x1000 keeps the memory clauses of the invariant. -/
theorem storeBytes_keeps_memory {a : Nat} {l : List Byte} {s : State} (ha : 0x200 ≤ a)
    (hl : a + l.length ≤ 0x1000) (hwf : Memory.wf s.cfg s.mem = true)
    (hres : ∀ c ∈ s.mem, romBase ≤ c.1) :
    Memory.wf (storeBytes a l s).cfg (storeBytes a l s).mem = true ∧
      ∀ c ∈ (storeBytes a l s).mem, romBase ≤ c.1 :=
  ⟨wf_storeBytes hl hwf, Memory.listed_writeBytes ha hres⟩

theorem storable_of_ldBVx_noFault {x : RegIdx} {s : State}
    (hf : Claims.instrFault (.ldBVx x) s = none) :
    0x200 ≤ memBase s ∧ memBase s + 3 ≤ 0x1000 := by
  simp only [Claims.instrFault] at hf
  split_ifs at hf
  simp only [memBase]
  omega

theorem storable_of_ldMemVx_noFault {x : RegIdx} {s : State}
    (hf : Claims.instrFault (.ldMemVx x) s = none) :
    0x200 ≤ memBase s ∧ memBase s + (x.val + 1) ≤ 0x1000 := by
  simp only [Claims.instrFault] at hf
  split_ifs at hf
  simp only [memBase]
  omega

/-- An instruction that completes keeps memory canonical and the reserved region unlisted. -/
theorem completed_keeps_memory {i : Instr} {s : State} (hf : Claims.instrFault i s = none)
    (hwf : Memory.wf s.cfg s.mem = true) (hres : ∀ c ∈ s.mem, romBase ≤ c.1) :
    Memory.wf (completed i s).cfg (completed i s).mem = true ∧
      ∀ c ∈ (completed i s).mem, romBase ≤ c.1 := by
  cases i with
  | ldBVx x =>
    obtain ⟨hlow, hhigh⟩ := storable_of_ldBVx_noFault hf
    exact storeBytes_keeps_memory (l := bcdDigits (readV x s)) hlow hhigh hwf hres
  | ldMemVx x =>
    obtain ⟨hlow, hhigh⟩ := storable_of_ldMemVx_noFault hf
    exact storeBytes_keeps_memory hlow (by rwa [lowRegs_length]) hwf hres
  | _ =>
    rw [completed_cfg, completed_mem]
    exacts [⟨hwf, hres⟩, fun _ => nofun, fun _ => nofun]

/-- R16: from a fetchable `PC` no entry of the policy table exceeds 0x10FE, the sum `0xFFF + 0xFF` of
`JP V0, nnn` being the largest. -/
theorem nextPc_le {i : Instr} {s : State} (hp : s.pc.toNat ≤ 0xFFE)
    (hstack : ∀ j : Fin 16, (s.stack[j.val]).toNat ≤ 0x1000) : Claims.nextPc i s ≤ 0x10FE := by
  cases i with
  | jp nnn | call nnn =>
    have := nnn.isLt
    simp only [Claims.nextPc]
    omega
  | jpV0 nnn =>
    have := nnn.isLt
    have := (readV 0 s).isLt
    simp only [Claims.nextPc]
    omega
  | ret =>
    simp only [Claims.nextPc]
    split
    · omega
    · exact (hstack ⟨s.sp.val - 1, by omega⟩).trans (by omega)
  | seVxKk | sneVxKk | seVxVy | sneVxVy | skpVx | sknpVx =>
    simp only [Claims.nextPc]
    split <;> omega
  | _ =>
    simp only [Claims.nextPc]
    omega

/-- R16: the only address an instruction pushes is that of the instruction after the `CALL`. -/
theorem completed_stack_le {i : Instr} {s : State} (hp : s.pc.toNat ≤ 0xFFE)
    (hstack : ∀ j : Fin 16, (s.stack[j.val]).toNat ≤ 0x1000) (j : Fin 16) :
    ((completed i s).stack[j.val]).toNat ≤ 0x1000 := by
  cases i with
  | call nnn =>
    by_cases hj : j.val = s.sp.val
    · rw [completed_call_slot nnn s j hj]
      bv_omega
    · simpa [completed, Vector.getElem_setIfInBounds, Ne.symm hj] using hstack j
  | _ =>
    simpa [completed_stack] using hstack j

theorem completed_ne_unsupported {i : Instr} {s : State} (hr : s.rs = .running)
    (hf : Claims.instrFault i s = none) : (completed i s).rs ≠ .terminal .unsupportedOpcode := by
  obtain ⟨hrun, -⟩ | ⟨hwait, -⟩ | ⟨kind, ht, hk, -⟩ := exec_ends (exec_of_noFault hf) hr
  · simp [hrun]
  · simp [hwait]
  · simpa [ht] using hk

/-- While a `cycle` is served its operand is held, so its work is said to keep the invariant with the
operand put away. -/
theorem runCycle_keeps_inv {s t : State} (h : { s with rand := none }.Inv)
    (ht : runCycle s = .next t) : { t with rand := none }.Inv := by
  obtain ⟨-, rfl⟩ | ⟨-, kind, -, hk, rfl⟩ | ⟨hr, -, i, hp, -, hf, rfl⟩ := runCycle_cases ht
  · exact h
  · exact h.of_same rfl rfl rfl rfl (by simpa using hk) rfl
  · obtain ⟨hwf, hres⟩ := completed_keeps_memory hf h.memCanonical h.reservedKept
    exact {
      memCanonical := hwf
      reservedKept := hres
      pcBound := (completed_pc hf hp).trans_le (nextPc_le hp h.stackBound)
      stackBound := completed_stack_le hp h.stackBound
      neverUnsupported := completed_ne_unsupported hr hf
      noOperandHeld := rfl }

theorem cycle_keeps_inv {rand : Option Byte} {s t : State} (h : s.Inv)
    (ht : cycle rand s = .next t) : t.Inv := by
  obtain ⟨u, hu, rfl⟩ := cycle_next ht
  have hbegin : { beginCycle rand s with rand := none }.Inv :=
    h.of_same rfl rfl rfl rfl h.neverUnsupported rfl
  have hwork := runCycle_keeps_inv hbegin hu
  exact hwork.of_same rfl rfl rfl rfl hwork.neverUnsupported rfl

/-- `load_rom` copies from 0x200 up, and only what fits below 0x1000. -/
theorem loadRom_keeps_inv {bytes : List Byte} {s : State} (h : s.Inv) : (loadRom bytes s).Inv := by
  unfold loadRom
  split
  · exact h.of_same rfl rfl rfl rfl h.neverUnsupported h.noOperandHeld
  · have hl : romBase + bytes.length ≤ 0x1000 := by
      simp only [romBase, romMax] at *
      omega
    obtain ⟨hwf, hres⟩ :=
      storeBytes_keeps_memory (Nat.le_refl romBase) hl h.memCanonical h.reservedKept
    exact { h with memCanonical := hwf, reservedKept := hres }

theorem pressKey_keeps_inv {k : KeyIdx} {s : State} (h : s.Inv) : (pressKey k s).Inv := by
  unfold pressKey
  simp only
  split
  · exact h.of_same rfl rfl rfl rfl nofun h.noOperandHeld
  · exact h.of_same rfl rfl rfl rfl h.neverUnsupported h.noOperandHeld

theorem serve_keeps_inv {c : Command} {s t : State} (h : s.Inv) (ht : serve c s = .next t) :
    t.Inv := by
  have hbegin : (beginCommand s).Inv :=
    h.of_same rfl rfl rfl rfl h.neverUnsupported h.noOperandHeld
  cases c with
  | cycle rand => exact cycle_keeps_inv h ht
  | init =>
    cases ht
    exact (initial_inv s.cfg).of_same rfl rfl rfl rfl nofun rfl
  | loadRom bytes =>
    cases ht
    exact loadRom_keeps_inv hbegin
  | tickTimers =>
    cases ht
    exact hbegin.of_same (by simp) (by simp) (by simp) (by simp)
      (by simpa using h.neverUnsupported) (by simpa using h.noOperandHeld)
  | pressKey k =>
    cases ht
    exact pressKey_keeps_inv hbegin
  | releaseKey | getRunState | getScreen =>
    cases ht
    exact hbegin.of_same rfl rfl rfl rfl h.neverUnsupported h.noOperandHeld

/-- Settles O50, by which command the step serves. -/
theorem everyStepKeepsInv : Obligations.EveryStepKeepsInv := by
  intro s t h ht
  cases hc : s.commands with
  | nil =>
    rw [step_of_nil hc] at ht
    exact cycle_keeps_inv h ht
  | cons c cs =>
    rw [step_of_cons hc] at ht
    have htaken : { s with commands := cs }.Inv :=
      h.of_same rfl rfl rfl rfl h.neverUnsupported h.noOperandHeld
    exact serve_keeps_inv htaken ht

end Sys2Proof.Machine

/-! ## Stores reach only their own bytes, and are seen by the next fetch (20_memory.md R43, R53, R56) -/

namespace Sys2Proof.Machine

/-- Only a byte of the stored span can read differently after a store. -/
theorem memAt_storeBytes_ne {a b : Nat} {l : List Byte} {s : State} (ha : a + l.length ≤ 0x1000)
    (hwf : Memory.wf s.cfg s.mem = true) (hne : memAt b (storeBytes a l s) ≠ memAt b s) :
    a ≤ b ∧ b < a + l.length := by
  by_contra hout
  exact hne (memAt_storeBytes_outside (by omega) ha hwf)

/-- Both store instructions are `memAt_storeBytes_ne` of a span that their checks have found storable;
every other instruction keeps memory. -/
theorem memAt_completed_ne {i : Instr} {s : State} {a : Nat} (hf : Claims.instrFault i s = none)
    (hwf : Memory.wf s.cfg s.mem = true) (hne : memAt a (completed i s) ≠ memAt a s) :
    0x200 ≤ a ∧ a ≤ 0xFFF ∧ memBase s ≤ a ∧ a < memBase s + Claims.storedLength i := by
  cases i with
  | ldBVx x =>
    obtain ⟨hlow, hhigh⟩ := storable_of_ldBVx_noFault hf
    have hin : memBase s ≤ a ∧ a < memBase s + 3 :=
      memAt_storeBytes_ne (l := bcdDigits (readV x s)) hhigh hwf hne
    simp only [Claims.storedLength]
    omega
  | ldMemVx x =>
    obtain ⟨hlow, hhigh⟩ := storable_of_ldMemVx_noFault hf
    have hin := memAt_storeBytes_ne (by rwa [lowRegs_length]) hwf hne
    rw [lowRegs_length] at hin
    simp only [Claims.storedLength]
    omega
  | _ =>
    refine absurd (memAt_congr (completed_cfg _ s) (completed_mem s ?_ ?_)) hne
    all_goals exact fun _ => nofun

/-- Settles O49: a fault changes only `RS`, and an instruction that completes changes only the bytes of
`memAt_completed_ne`. -/
theorem storesReachOnlyTheirBytes : Obligations.StoresReachOnlyTheirBytes := by
  intro i s t a hwf h hne
  obtain ⟨kind, -, rfl⟩ | ⟨hf, rfl⟩ := exec_cases h
  · exact absurd rfl hne
  · exact memAt_completed_ne hf hwf hne

/-- R125: the byte at `I + k` after `LD [I], Vx` is `V[k]`. -/
theorem memAt_completed_ldMemVx {x k : RegIdx} {s : State} (hk : k ≤ x)
    (hx : s.i.toNat + x.val ≤ 0xFFF) (hwf : Memory.wf s.cfg s.mem = true) :
    memAt (memBase s + k.val) (completed (.ldMemVx x) s) = readV k s := by
  have hk' : k.val < (lowRegs x s).length := by
    rw [lowRegs_length]
    exact Nat.lt_succ_of_le hk
  have hspan : memBase s + (lowRegs x s).length ≤ 0x1000 := by
    rw [lowRegs_length, memBase]
    omega
  exact (memAt_storeBytes_inside hk' hspan hwf).trans (lowRegs_getElem hk')

/-- Settles O28: the two bytes at `PC + 2` are those of `V[j]` and `V[j + 1]`, and neither `PC + 2` nor
`j + 1` wraps. -/
theorem storeIsSeenByNextFetch : Obligations.StoreIsSeenByNextFetch := by
  intro x j s t hwf hi hx hj hpc h
  have hxlt := x.isLt
  have hjsucc : (j + 1).val = j.val + 1 := Fin.val_add_one_of_lt' (by omega)
  have ht : completed (.ldMemVx x) s = t :=
    Host.Outcome.next.inj ((execLdMemVx_of_storable hi hx).symm.trans h)
  subst ht
  have hfetchable : s.pc.toNat ≤ 0xFFE := by omega
  have hnext : (completed (.ldMemVx x) s).pc.toNat = memBase s + j.val :=
    (advance_pc_toNat hfetchable).trans hpc
  have hhi := memAt_completed_ldMemVx (k := j) (Fin.le_def.2 (by omega)) hx hwf
  have hlo := memAt_completed_ldMemVx (k := j + 1) (Fin.le_def.2 (by omega)) hx hwf
  rw [hjsucc, ← Nat.add_assoc] at hlo
  rw [fetch_of_le (by rw [hnext, memBase]; omega), hnext, hhi, hlo]

/-! ## The fetch (20_memory.md R44, R45) -/

/-- A `cycle` whose work raises a fault changes only `RS` and responds the failure (60_exceptions.md
R181). -/
theorem step_of_raise {s : State} {rand : Option Byte} {cs : List Command} {kind : FaultKind}
    (hc : Claims.cycleNext s rand cs)
    (h : runCycle (Claims.inCycle s rand cs) = raise kind (Claims.inCycle s rand cs)) :
    step s = .next (Claims.responds { Claims.inCycle s rand cs with rs := .terminal kind }
      (.fail kind)) :=
  (step_of_cycleNext hc).trans (congrArg (onNext endCycle) h)

theorem wordOfBytes_toNat_div (hi lo : Byte) : (wordOfBytes hi lo).toNat / 0x100 = hi.toNat := by
  have := lo.isLt
  rw [wordOfBytes_toNat]
  omega

theorem wordOfBytes_toNat_mod (hi lo : Byte) : (wordOfBytes hi lo).toNat % 0x100 = lo.toNat := by
  have := lo.isLt
  rw [wordOfBytes_toNat]
  omega

/-- Settles O7, by whether `PC` can be fetched from. -/
theorem fetchIsBigEndianAndBounded : Obligations.FetchIsBigEndianAndBounded := by
  intro s
  refine ⟨fun hgt => ⟨fetch_of_gt hgt, fun rand cs hc hr => ?_⟩, fun hle => ?_⟩
  · exact step_of_raise hc (runCycle_of_unfetchable hr hgt)
  · exact ⟨_, fetch_of_le hle, wordOfBytes_toNat_div _ _, wordOfBytes_toNat_mod _ _⟩

theorem readyToFetch_pc_le (s : State) : (readyToFetch s).pc.toNat ≤ 0xFFE := by
  simp only [readyToFetch]
  split
  · decide
  · omega

/-- Every bit of a 16-bit row is in the word. -/
theorem tableWord_sixteen (w : Nat) : tableWord 16 w = BitVec.ofNat 16 w :=
  BitVec.eq_of_toNat_eq (by simp [tableWord])

/-- Settles O4: the placed word is fetched by `fetch_placeWord`, and the decoder's two bytes make the
table word again by `decodeTableWord_eq_some`. -/
theorem tableWordsAreFetchedWords : Obligations.TableWordsAreFetchedWords := by
  intro s w _ _ hwf
  rw [← tableWord_sixteen]
  exact ⟨fetch_placeWord (readyToFetch_pc_le s) hwf, fun _ => decodeTableWord_eq_some⟩

end Sys2Proof.Machine

/-! ## Decoding and encoding (spec/30_encoding.md R62, R64, R65) -/

namespace Sys2Proof

/-- Settles O1: each word is decoded by evaluation. -/
theorem knownWordsDecode : Obligations.KnownWordsDecode := by
  unfold Obligations.KnownWordsDecode
  decide

theorem sys_wellFormed_iff {nnn : Addr} :
    (Instr.sys nnn).wellFormed = true ↔ nnn ≠ 0x0E0 ∧ nnn ≠ 0x0EE := by
  simp [Instr.wellFormed]

/-- Settles O2: the fields of an encoded word are the operands, and the class with its modifier selects
the constructor again; only `SYS` needs well-formedness. -/
theorem decodeOfEncodeIsIdentity : Obligations.DecodeOfEncodeIsIdentity := by
  intro i hwf
  cases i with
  | sys nnn =>
    obtain ⟨hcls, hret⟩ := sys_wellFormed_iff.1 hwf
    exact decode_encodeA_zero hcls hret
  | cls | ret => decide
  | ldVxVy | orVxVy | andVxVy | xorVxVy | addVxVy | subVxVy | shrVx | subnVxVy | shlVx =>
    simp [encode, decode, decode8]
  | skpVx | sknpVx => simp [encode, decode, decodeE]
  | ldVxDt | ldVxK | ldDtVx | ldStVx | addIVx | ldFVx | ldBVx | ldMemVx | ldVxMem =>
    simp [encode, decode, decodeF]
  | _ => simp [encode, decode]

/-! ### A word that decodes, by class -/

/-- The class 0 words are `CLS`, `RET` and the well-formed `SYS`. -/
theorem encode_of_decode_class0 {w : Word} {i : Instr} (hc : fieldClass w = 0x0#4)
    (h : decode w = .instr i) : encode i = w ∧ i.wellFormed = true := by
  have hw : encodeA 0x0#4 (fieldNnn w) = w := hc ▸ encodeA_fields w
  simp only [decode, hc] at h
  split_ifs at h with hcls hret
  · cases h
    exact ⟨hcls.symm, rfl⟩
  · cases h
    exact ⟨hret.symm, rfl⟩
  · cases h
    exact ⟨hw, sys_wellFormed_iff.2 ⟨fun hn => hcls (hw.symm.trans (hn ▸ by decide)),
      fun hn => hret (hw.symm.trans (hn ▸ by decide))⟩⟩

theorem encode_of_decode8 {x y : RegIdx} {n : BitVec 4} {i : Instr} (h : decode8 x y n = .instr i) :
    encode i = encodeXY 0x8#4 x y n ∧ i.wellFormed = true := by
  unfold decode8 at h
  split at h <;> cases h <;> exact ⟨rfl, rfl⟩

theorem encode_of_decodeE {x : RegIdx} {kk : Byte} {i : Instr} (h : decodeE x kk = .instr i) :
    encode i = encodeXK 0xE#4 x kk ∧ i.wellFormed = true := by
  unfold decodeE at h
  split at h <;> cases h <;> exact ⟨rfl, rfl⟩

theorem encode_of_decodeF {x : RegIdx} {kk : Byte} {i : Instr} (h : decodeF x kk = .instr i) :
    encode i = encodeXK 0xF#4 x kk ∧ i.wellFormed = true := by
  unfold decodeF at h
  split at h <;> cases h <;> exact ⟨rfl, rfl⟩

/-- Settles O3, by class (case `h_k` of the decoder's split is class `k - 1`): the decoder uses every
field of the word, so the encoder puts the word together again from its fields. -/
theorem encodeOfDecodeIsIdentity : Obligations.EncodeOfDecodeIsIdentity := by
  intro w i hd
  have hA := encodeA_fields w
  have hXK := encodeXK_fields w
  have hXY := encodeXY_fields w
  have h := hd
  unfold decode at h
  split at h
  case h_1 hc => exact encode_of_decode_class0 hc hd
  case h_6 hc | h_10 hc =>
    rw [hc] at hXY
    split_ifs at h with hn
    cases h
    exact ⟨(hn ▸ hXY :), rfl⟩
  case h_9 hc =>
    obtain ⟨he, hwf⟩ := encode_of_decode8 h
    exact ⟨he.trans (hc ▸ hXY), hwf⟩
  case h_15 hc =>
    obtain ⟨he, hwf⟩ := encode_of_decodeE h
    exact ⟨he.trans (hc ▸ hXK), hwf⟩
  case h_16 =>
    obtain ⟨he, hwf⟩ := encode_of_decodeF h
    have hc : fieldClass w = 0xF#4 := by apply class_last <;> assumption
    exact ⟨he.trans (hc ▸ hXK), hwf⟩
  case h_14 hc =>
    cases h
    exact ⟨(hc ▸ hXY :), rfl⟩
  case h_2 hc | h_3 hc | h_11 hc | h_12 hc =>
    cases h
    exact ⟨(hc ▸ hA :), rfl⟩
  case h_4 hc | h_5 hc | h_7 hc | h_8 hc | h_13 hc =>
    cases h
    exact ⟨(hc ▸ hXK :), rfl⟩

/-! ## The invalid words (30_encoding.md R66, 60_exceptions.md R196) -/

/-- The list of R66 in the fields of the word. -/
theorem illegalWord_iff_fields {cfg : Config} {w : Word} :
    Claims.illegalWord cfg w ↔
      (fieldClass w = 0x5#4 ∧ fieldN w ≠ 0) ∨
      (fieldClass w = 0x8#4 ∧ fieldN w ∈ [0x8#4, 0x9#4, 0xA#4, 0xB#4, 0xC#4, 0xD#4, 0xF#4]) ∨
      (fieldClass w = 0x9#4 ∧ fieldN w ≠ 0) ∨
      (fieldClass w = 0xE#4 ∧ fieldKk w ∉ [0x9E#8, 0xA1#8]) ∨
      (fieldClass w = 0xF#4 ∧
        fieldKk w ∉ [0x07#8, 0x0A#8, 0x15#8, 0x18#8, 0x1E#8, 0x29#8, 0x33#8, 0x55#8, 0x65#8]) ∨
      (fieldClass w = 0x0#4 ∧ w ∉ [0x00E0#16, 0x00EE#16] ∧ cfg.sysPolicy = .invalid) := by
  unfold Claims.illegalWord
  rw [← fieldClass_toNat, ← fieldN_toNat, ← fieldKk_toNat]
  simp [BitVec.toNat_eq]

theorem modifier_of_decode8_invalid {x y : RegIdx} {n : BitVec 4} {why : DecodeError}
    (h : decode8 x y n = .invalid why) : n ∈ [0x8#4, 0x9#4, 0xA#4, 0xB#4, 0xC#4, 0xD#4, 0xF#4] := by
  unfold decode8 at h
  split at h
  case h_10 =>
    clear h
    revert n
    decide
  all_goals cases h

theorem modifier_of_decodeE_invalid {x : RegIdx} {kk : Byte} {why : DecodeError}
    (h : decodeE x kk = .invalid why) : kk ∉ [0x9E#8, 0xA1#8] := by
  intro hmem
  simp only [List.mem_cons, List.not_mem_nil, or_false] at hmem
  rcases hmem with rfl | rfl <;> cases h

theorem modifier_of_decodeF_invalid {x : RegIdx} {kk : Byte} {why : DecodeError}
    (h : decodeF x kk = .invalid why) :
    kk ∉ [0x07#8, 0x0A#8, 0x15#8, 0x18#8, 0x1E#8, 0x29#8, 0x33#8, 0x55#8, 0x65#8] := by
  intro hmem
  simp only [List.mem_cons, List.not_mem_nil, or_false] at hmem
  rcases hmem with rfl | rfl | rfl | rfl | rfl | rfl | rfl | rfl | rfl <;> cases h

/-- By class, case `h_k` being class `k - 1`: only 5, 8, 9, E and F have words that do not decode. -/
theorem illegalWord_of_invalid {cfg : Config} {w : Word} {why : DecodeError}
    (h : decode w = .invalid why) : Claims.illegalWord cfg w := by
  rw [illegalWord_iff_fields]
  unfold decode at h
  split at h
  case h_1 => split_ifs at h
  case h_6 hc =>
    split_ifs at h with hn
    exact .inl ⟨hc, hn⟩
  case h_9 hc => exact .inr (.inl ⟨hc, modifier_of_decode8_invalid h⟩)
  case h_10 hc =>
    split_ifs at h with hn
    exact .inr (.inr (.inl ⟨hc, hn⟩))
  case h_15 hc => exact .inr (.inr (.inr (.inl ⟨hc, modifier_of_decodeE_invalid h⟩)))
  case h_16 =>
    have hc : fieldClass w = 0xF#4 := by apply class_last <;> assumption
    exact .inr (.inr (.inr (.inr (.inl ⟨hc, modifier_of_decodeF_invalid h⟩))))
  all_goals cases h

theorem encodeA_ne {c : BitVec 4} {nnn : Addr} {w : Word} (h : nnn ≠ fieldNnn w) :
    encodeA c nnn ≠ w := by
  rintro rfl
  exact h (fieldNnn_encodeA c nnn).symm

/-- The word of an instruction is in the list of R66 only if it is `SYS` under the policy `invalid`. -/
theorem illegalWord_encode_iff {cfg : Config} {i : Instr} (hwf : i.wellFormed = true) :
    Claims.illegalWord cfg (encode i) ↔ (∃ nnn, i = .sys nnn) ∧ cfg.sysPolicy = .invalid := by
  rw [illegalWord_iff_fields]
  cases i with
  | sys nnn =>
    obtain ⟨hcls, hret⟩ := sys_wellFormed_iff.1 hwf
    have hw : encodeA 0x0#4 nnn ≠ 0x00E0#16 := encodeA_ne hcls
    have hw' : encodeA 0x0#4 nnn ≠ 0x00EE#16 := encodeA_ne hret
    simp [encode, hw, hw']
  | cls =>
    rw [show fieldClass (encode .cls) = 0x0#4 by decide]
    simp [encode]
  | ret =>
    rw [show fieldClass (encode .ret) = 0x0#4 by decide]
    simp [encode]
  | _ => simp [encode]

end Sys2Proof

namespace Sys2Proof.Machine

theorem instrFault_eq_invalidOpcode_iff {i : Instr} {s : State} :
    Claims.instrFault i s = some .invalidOpcode ↔
      (∃ nnn, i = .sys nnn) ∧ s.cfg.sysPolicy = .invalid := by
  cases i <;> simp [Claims.instrFault, ite_eq_iff]

/-- A `cycle` of a fetchable word raises `INVALID_OPCODE` exactly for the words of the list. -/
theorem cycleFault_eq_invalidOpcode_iff {s : State} (hp : s.pc.toNat ≤ 0xFFE) :
    Claims.cycleFault s = some .invalidOpcode ↔
      Claims.illegalWord s.cfg (BitVec.ofNat 16 (Claims.wordAtPc s)) := by
  cases hd : decode (BitVec.ofNat 16 (Claims.wordAtPc s)) with
  | invalid why => simp only [cycleFault_of_invalid hp hd, illegalWord_of_invalid hd]
  | instr i =>
    obtain ⟨hw, hwf⟩ := encodeOfDecodeIsIdentity _ _ hd
    rw [cycleFault_of_instr hp hd, instrFault_eq_invalidOpcode_iff, ← hw, illegalWord_encode_iff hwf]

theorem runCycle_of_fault {s : State} {kind : FaultKind} (hr : s.rs = .running)
    (hf : Claims.cycleFault s = some kind) : runCycle s = raise kind s := by
  obtain ⟨t, ht⟩ := runCycle_answers s
  obtain ⟨hr', -⟩ | ⟨-, kind', hf', -, rfl⟩ | ⟨-, hf', -⟩ := runCycle_cases ht
  · exact absurd hr hr'
  · cases hf.symm.trans hf'
    exact ht
  · cases hf.symm.trans hf'

theorem completed_live {i : Instr} {s : State} (h : s.live) : (completed i s).live := by
  intro kind
  cases i with
  | ldVxK x => exact nofun
  | _ => simpa [completed] using h kind

/-- The run state after the work of a running `cycle` is terminal only by the fault of `cycleFault`. -/
theorem cycleFault_of_runCycle_terminal {s t : State} {kind : FaultKind} (hr : s.rs = .running)
    (h : runCycle s = .next t) (ht : t.rs = .terminal kind) :
    Claims.cycleFault s = some kind := by
  obtain ⟨hr', -⟩ | ⟨-, kind', hf, -, rfl⟩ | ⟨-, -, i, -, -, -, rfl⟩ := runCycle_cases h
  · exact absurd hr hr'
  · cases ht
    exact hf
  · exact absurd ht (completed_live (by simp [State.live, hr]) kind)

/-- Settles O8: the fault of the `cycle` is `INVALID_OPCODE` exactly for the words of the list, and the
`cycle` ends in the fault it raises. -/
theorem illegalWordsEndInInvalidOpcode : Obligations.IllegalWordsEndInInvalidOpcode := by
  intro s rand cs hc hr hp
  have hiff := cycleFault_eq_invalidOpcode_iff (s := Claims.inCycle s rand cs) hp
  refine ⟨fun hill => ?_, fun hleg => ?_⟩
  · exact step_of_raise hc (runCycle_of_fault hr (hiff.2 hill))
  · obtain ⟨u, hu⟩ := runCycle_answers (Claims.inCycle s rand cs)
    refine ⟨endCycle u, (step_of_cycleNext hc).trans (congrArg (onNext endCycle) hu), fun hk => ?_⟩
    exact hleg (hiff.1 (cycleFault_of_runCycle_terminal hr hu hk))

end Sys2Proof.Machine

/-! ## Control transfer (spec/40_control_flow.md R81 to R89) -/

namespace Sys2Proof.Machine

/-- `decodeOfEncodeIsIdentity` for a word given as the number of its pattern. -/
theorem decode_of_encode_eq {w : Word} {i : Instr} (hw : encode i = w) (hwf : i.wellFormed = true) :
    decode w = .instr i :=
  hw ▸ decodeOfEncodeIsIdentity i hwf

/-- Settles O9: R182 names a fault for `SYS` exactly under the policy `invalid`. -/
theorem sysFollowsPolicy : Obligations.SysFollowsPolicy := by
  refine ⟨fun nnn hcls hret => ?_, fun nnn s => ⟨fun hpol => ?_, fun hpol => ?_⟩⟩
  · exact decode_of_encode_eq (encodeA_eq_ofNat 0x0 nnn) (sys_wellFormed_iff.2 ⟨hcls, hret⟩)
  · exact exec_of_fault (if_pos hpol)
  · have hf : Claims.instrFault (.sys nnn) s = none := if_neg (by simp [hpol])
    exact exec_of_noFault hf

/-- Settles O10: each jump is a `jumpTo`, and the sum of `JP V0, nnn` does not wrap. -/
theorem jumpsSetPc : Obligations.JumpsSetPc := by
  intro nnn s
  refine ⟨?_, ⟨_, rfl, rfl, addrWord_toNat nnn⟩, ?_, ⟨_, rfl, rfl, ?_⟩⟩
  · exact decode_of_encode_eq (encodeA_eq_ofNat 0x1 nnn) rfl
  · exact decode_of_encode_eq (encodeA_eq_ofNat 0xB nnn) rfl
  · exact addrWord_add_byteWord_toNat nnn (readV 0 s)

/-! ### The call stack -/

theorem completed_call_sp {nnn : Addr} {s : State} (h : s.sp.val ≠ 16) :
    (completed (.call nnn) s).sp.val = s.sp.val + 1 :=
  Nat.mod_eq_of_lt (by omega)

theorem completed_call_slots (nnn : Addr) (s : State) (j : Fin 16) :
    (completed (.call nnn) s).stack[j.val] =
      if j.val = s.sp.val then s.pc + 2 else s.stack[j.val] := by
  split
  case isTrue hj => exact completed_call_slot nnn s j hj
  case isFalse hj => exact Vector.getElem_setIfInBounds_ne j.isLt (Ne.symm hj)

theorem completed_ret_pc {s : State} {j : Fin 16} (hj : j.val = (completed .ret s).sp.val) :
    (completed .ret s).pc = s.stack[j.val] := by
  simp [completed, hj]

/-- Settles O11: R182 names a fault for `CALL` exactly when all 16 slots are in use. -/
theorem callPushesReturnAddress : Obligations.CallPushesReturnAddress := by
  intro nnn s
  refine ⟨?_, fun hroom => ?_, fun hfull => ?_⟩
  · exact decode_of_encode_eq (encodeA_eq_ofNat 0x2 nnn) rfl
  · have hf : Claims.instrFault (.call nnn) s = none := if_neg hroom
    exact ⟨_, exec_of_noFault hf, rfl, addrWord_toNat nnn, completed_call_sp hroom,
      completed_call_slots nnn s⟩
  · exact exec_of_fault (if_pos hfull)

/-- Settles O12: R182 names a fault for `RET` exactly on an empty stack. -/
theorem retPopsReturnAddress : Obligations.RetPopsReturnAddress := by
  refine ⟨decode_of_encode_eq (i := .ret) rfl rfl, fun s => ⟨fun hempty => ?_, fun hused => ?_⟩⟩
  · exact exec_of_fault (if_pos hempty)
  · have hf : Claims.instrFault .ret s = none := if_neg hused
    exact ⟨_, exec_of_noFault hf, rfl, Nat.sub_one_add_one hused, fun _ hj => completed_ret_pc hj⟩

/-- `RET` after `CALL` undoes the push of `SP` and takes the pushed slot as `PC`. -/
theorem completed_ret_completed_call {nnn : Addr} {s : State} (h : s.sp.val ≠ 16) :
    completed .ret (completed (.call nnn) s) =
      { s with pc := s.pc + 2, stack := (completed (.call nnn) s).stack } := by
  have hsp : (completed .ret (completed (.call nnn) s)).sp = s.sp :=
    Fin.ext (congrArg (· - 1) (completed_call_sp h))
  have hpc : (completed .ret (completed (.call nnn) s)).pc = s.pc + 2 :=
    (completed_ret_pc (j := ⟨s.sp.val, by omega⟩) (congrArg Fin.val hsp).symm).trans
      (completed_call_slot nnn s _ rfl)
  calc completed .ret (completed (.call nnn) s)
      = { s with
          pc := (completed .ret (completed (.call nnn) s)).pc
          sp := (completed .ret (completed (.call nnn) s)).sp
          stack := (completed (.call nnn) s).stack } := rfl
    _ = { s with pc := s.pc + 2, stack := (completed (.call nnn) s).stack } := by rw [hpc, hsp]

/-- Settles O13: `CALL` completes, and leaves a slot in use for `RET`. -/
theorem callThenRetReturns : Obligations.CallThenRetReturns := by
  intro nnn s hroom
  have hcall : Claims.instrFault (.call nnn) s = none := if_neg hroom
  have hused : (completed (.call nnn) s).sp.val ≠ 0 := by
    rw [completed_call_sp hroom]
    exact Nat.succ_ne_zero _
  have hret : Claims.instrFault .ret (completed (.call nnn) s) = none := if_neg hused
  refine ⟨_, _, exec_of_noFault hcall, exec_of_noFault hret, completed_ret_completed_call hroom, ?_⟩
  intro j hj
  exact (completed_call_slots nnn s j).trans (if_neg hj)

/-! ### Skips -/

theorem skipsWhen_skipIf {b : Bool} {c : Prop} (s : State) (h : b = true ↔ c) :
    Claims.skipsWhen (.next (skipIf b s)) s c := by
  refine ⟨_, rfl, ?_, fun hc => ?_, fun hc => ?_⟩
  · rw [skipIf_eq]
  · rw [skipIf_pc, if_pos (h.2 hc)]
  · rw [skipIf_pc, if_neg (mt h.1 hc)]

/-- Settles O14: each skip is a `skipIf` of the Boolean form of its condition. -/
theorem registerSkips : Obligations.RegisterSkips := by
  intro x y kk s
  refine ⟨?_, skipsWhen_skipIf s beq_iff_eq, ?_, skipsWhen_skipIf s bne_iff_ne,
    ?_, skipsWhen_skipIf s beq_iff_eq, ?_, skipsWhen_skipIf s bne_iff_ne⟩
  · exact decode_of_encode_eq (encodeXK_eq_ofNat 0x3 x kk) rfl
  · exact decode_of_encode_eq (encodeXK_eq_ofNat 0x4 x kk) rfl
  · exact decode_of_encode_eq (encodeXY_eq_ofNat 0x5 x y 0) rfl
  · exact decode_of_encode_eq (encodeXY_eq_ofNat 0x9 x y 0) rfl

end Sys2Proof.Machine

/-! ## Load, ALU, random (spec/41_load_alu.md R101 to R112) -/

namespace Sys2Proof.Machine

/-! ### The random operand -/

/-- Only `RND` asks for the random byte. -/
theorem completed_with_rand {i : Instr} (s : State) (rand : Option Byte)
    (h : ∀ x kk, i ≠ .rndVxKk x kk) :
    completed i { s with rand := rand } = { completed i s with rand := rand } := by
  cases i with
  | rndVxKk x kk => exact absurd rfl (h x kk)
  | _ => simp only [completed, skipIf_eq, emitRedraw_eq] <;> rfl

/-- Settles O22: neither the fault condition nor the completed state reads the random operand. -/
theorem randomByteReachesOnlyRnd : Obligations.RandomByteReachesOnlyRnd := by
  intro i s t rand hi h
  obtain ⟨kind, hf, rfl⟩ | ⟨hf, rfl⟩ := exec_cases h
  · exact exec_of_fault hf
  · have hf' : Claims.instrFault i { s with rand := rand } = none := hf
    rw [exec_of_noFault hf', completed_with_rand s rand hi]

theorem randomByte_of_operand {s : State} {rand : Byte} (h : s.rand = some rand) :
    randomByte s = rand := by
  simp [randomByte, h]

theorem randomByte_of_none {s : State} (h : s.rand = none) :
    randomByte s = Config.randByte s.draws := by
  simp [randomByte, h]

theorem consumeRandom_of_operand {s : State} {rand : Byte} (h : s.rand = some rand) :
    consumeRandom s = s := by
  simp [consumeRandom, h]

theorem consumeRandom_of_none {s : State} (h : s.rand = none) :
    consumeRandom s = { s with draws := s.draws + 1 } := by
  simp [consumeRandom, h]

/-! ### The two shapes of a result -/

theorem writesReg_advance_writeV {x : RegIdx} {b : Byte} {value : Nat} (s : State)
    (h : b.toNat = value) :
    Claims.writesReg (.next (advance (writeV x b s))) s x value := by
  refine ⟨_, rfl, rfl, fun j => ?_⟩
  rw [readV_advance, readV_writeV, apply_ite BitVec.toNat, h]

theorem writesRegAndFlag_advance_writeResultThenFlag {x : RegIdx} {r : Byte} {f : Bool}
    {value flag : Nat} (s : State) (hr : r.toNat = value) (hf : (flagByte f).toNat = flag) :
    Claims.writesRegAndFlag (.next (advance (writeResultThenFlag x r f s))) s x value flag := by
  refine ⟨_, rfl, rfl, fun j => ?_⟩
  rw [readV_advance, readV_writeResultThenFlag, apply_ite BitVec.toNat, apply_ite BitVec.toNat, hr, hf]

/-! ### Loads and logic: one register and no flag -/

/-- Settles O16: each of the three writes one register by `writeV`. -/
theorem loadsAndAddImmediate : Obligations.LoadsAndAddImmediate := by
  intro x y kk s
  refine ⟨?_, writesReg_advance_writeV s rfl,
    ?_, writesReg_advance_writeV s (sumByte_toNat (readV x s) kk),
    ?_, writesReg_advance_writeV s rfl⟩
  · exact decode_of_encode_eq (encodeXK_eq_ofNat 0x6 x kk) rfl
  · exact decode_of_encode_eq (encodeXK_eq_ofNat 0x7 x kk) rfl
  · exact decode_of_encode_eq (encodeXY_eq_ofNat 0x8 x y 0x0) rfl

/-- Settles O17: each of the three writes one register by `writeV`. -/
theorem logicLeavesFlagAlone : Obligations.LogicLeavesFlagAlone := by
  intro x y s
  refine ⟨?_, writesReg_advance_writeV s (BitVec.toNat_or ..),
    ?_, writesReg_advance_writeV s (BitVec.toNat_and ..),
    ?_, writesReg_advance_writeV s (BitVec.toNat_xor ..)⟩
  · exact decode_of_encode_eq (encodeXY_eq_ofNat 0x8 x y 0x1) rfl
  · exact decode_of_encode_eq (encodeXY_eq_ofNat 0x8 x y 0x2) rfl
  · exact decode_of_encode_eq (encodeXY_eq_ofNat 0x8 x y 0x3) rfl

/-! ### Arithmetic and shifts: the result, then VF -/

theorem flagByte_carry_toNat (a b : Byte) :
    (flagByte (carry a b)).toNat = if a.toNat + b.toNat > 255 then 1 else 0 := by
  rw [flagByte_toNat, carry]
  exact if_congr decide_eq_true_iff rfl rfl

theorem flagByte_noBorrow_toNat (a b : Byte) :
    (flagByte (noBorrow a b)).toNat = if a.toNat > b.toNat then 1 else 0 := by
  rw [flagByte_toNat, noBorrow]
  exact if_congr decide_eq_true_iff rfl rfl

/-- Settles O18: the flag is the second of two writes. -/
theorem addRegistersSetsCarryLast : Obligations.AddRegistersSetsCarryLast := by
  intro x y s
  refine ⟨?_, writesRegAndFlag_advance_writeResultThenFlag s
    (sumByte_toNat (readV x s) (readV y s)) (flagByte_carry_toNat (readV x s) (readV y s))⟩
  exact decode_of_encode_eq (encodeXY_eq_ofNat 0x8 x y 0x4) rfl

/-- Settles O19: the flag is the second of two writes, and `SUBN` is `SUB` with its operands swapped. -/
theorem subtractsSetStrictNoBorrowLast : Obligations.SubtractsSetStrictNoBorrowLast := by
  intro x y s
  refine ⟨?_, writesRegAndFlag_advance_writeResultThenFlag s
      (diffByte_toNat (readV x s) (readV y s)) (flagByte_noBorrow_toNat (readV x s) (readV y s)),
    ?_, writesRegAndFlag_advance_writeResultThenFlag s
      (diffByte_toNat (readV y s) (readV x s)) (flagByte_noBorrow_toNat (readV y s) (readV x s))⟩
  · exact decode_of_encode_eq (encodeXY_eq_ofNat 0x8 x y 0x5) rfl
  · exact decode_of_encode_eq (encodeXY_eq_ofNat 0x8 x y 0x7) rfl

/-- Settles O20: the flag is the second of two writes, and the bit shifted out is a remainder or a
quotient of the old value. -/
theorem shiftsSetShiftedOutBitLast : Obligations.ShiftsSetShiftedOutBitLast := by
  intro x y s
  refine ⟨?_, writesRegAndFlag_advance_writeResultThenFlag s
      (halfByte_toNat (readV x s)) (flagByte_lowBit_toNat (readV x s)),
    ?_, writesRegAndFlag_advance_writeResultThenFlag s
      (doubleByte_toNat (readV x s)) (flagByte_highBit_toNat (readV x s))⟩
  · exact decode_of_encode_eq (encodeXY_eq_ofNat 0x8 x y 0x6) rfl
  · exact decode_of_encode_eq (encodeXY_eq_ofNat 0x8 x y 0xE) rfl

/-! ### The random byte, masked -/

theorem exec_rndVxKk_of_operand {s : State} {rand : Byte} (x : RegIdx) (kk : Byte)
    (h : s.rand = some rand) :
    exec (.rndVxKk x kk) s = .next (advance (writeV x (rand &&& kk) s)) := by
  rw [exec, execRndVxKk, randomByte_of_operand h, consumeRandom_of_operand h]

theorem exec_rndVxKk_of_none {s : State} (x : RegIdx) (kk : Byte) (h : s.rand = none) :
    exec (.rndVxKk x kk) s =
      .next (advance (writeV x (Config.randByte s.draws &&& kk) { s with draws := s.draws + 1 })) := by
  rw [exec, execRndVxKk, randomByte_of_none h, consumeRandom_of_none h]

/-- Settles O21, by whether the cycle carries a random operand. -/
theorem randomIsMasked : Obligations.RandomIsMasked := by
  intro x kk s
  refine ⟨?_, fun rand hrand => ?_, fun hnone => ?_⟩
  · exact decode_of_encode_eq (encodeXK_eq_ofNat 0xC x kk) rfl
  · rw [exec_rndVxKk_of_operand x kk hrand]
    exact writesReg_advance_writeV s rfl
  · exact ⟨_, exec_rndVxKk_of_none x kk hnone, rfl, fun j => readV_writeV j x _ _⟩

end Sys2Proof.Machine

/-! ## Address register and memory (spec/42_index_memory.md R121 to R126) -/

namespace Sys2Proof.Machine

/-! ### The address register -/

/-- Settles O23: each of the three is one write of `I`; only `ADD I, Vx` can wrap, at 16 bits. -/
theorem indexRegisterWrites : Obligations.IndexRegisterWrites := by
  intro x nnn s
  refine ⟨?_, ⟨_, rfl, rfl, addrWord_toNat nnn⟩, ?_, ⟨_, rfl, rfl, ?_⟩, ?_, ⟨_, rfl, rfl, ?_⟩⟩
  · exact decode_of_encode_eq (encodeA_eq_ofNat 0xA nnn) rfl
  · exact decode_of_encode_eq (encodeXK_eq_ofNat 0xF x 0x1E) rfl
  · rw [advance_i, BitVec.toNat_add, byteWord_toNat]
  · exact decode_of_encode_eq (encodeXK_eq_ofNat 0xF x 0x29) rfl
  · rw [advance_i, glyphAddr_toNat, lowNibble_val]

/-! ### The decimal store -/

theorem bcdDigits_map_toNat (b : Byte) :
    (bcdDigits b).map BitVec.toNat = [b.toNat / 100, b.toNat / 10 % 10, b.toNat % 10] := by
  have := b.isLt
  simp only [bcdDigits, List.map_cons, List.map_nil, BitVec.toNat_ofNat, List.cons.injEq,
    and_true]
  omega

/-- R124: the byte at `I + k` after `LD B, Vx` is the digit number `k`, hundreds first. -/
theorem memAt_completed_ldBVx {x : RegIdx} {k : Nat} {s : State}
    (hk : k < 3) (hi : s.i.toNat ≤ 0xFFD) (hwf : Memory.wf s.cfg s.mem = true) :
    (memAt (memBase s + k) (completed (.ldBVx x) s)).toNat =
      [(readV x s).toNat / 100, (readV x s).toNat / 10 % 10, (readV x s).toNat % 10][k] := by
  have hk' : k < (bcdDigits (readV x s)).length := hk
  have hspan : memBase s + (bcdDigits (readV x s)).length ≤ 0x1000 := Nat.add_le_add_right hi 3
  have hread : memAt (memBase s + k) (completed (.ldBVx x) s) = (bcdDigits (readV x s))[k] :=
    memAt_storeBytes_inside hk' hspan hwf
  simp only [hread, ← bcdDigits_map_toNat, List.getElem_map]

theorem memAt_completed_ldBVx_outside {x : RegIdx} {a : Nat} {s : State}
    (ha : a < memBase s ∨ memBase s + 2 < a) (hi : s.i.toNat ≤ 0xFFD)
    (hwf : Memory.wf s.cfg s.mem = true) : memAt a (completed (.ldBVx x) s) = memAt a s :=
  memAt_storeBytes_outside (l := bcdDigits (readV x s)) ha (Nat.add_le_add_right hi 3) hwf

/-- Settles O24: the law of the checked store for each range of `I`, then the bytes of the one store. -/
theorem bcdStoresThreeDigits : Obligations.BcdStoresThreeDigits := by
  intro x s
  refine ⟨?_, execLdBVx_of_reserved, execLdBVx_of_high, fun hlow hhigh hwf => ?_⟩
  · exact decode_of_encode_eq (encodeXK_eq_ofNat 0xF x 0x33) rfl
  · exact ⟨completed (.ldBVx x) s, execLdBVx_of_storable hlow hhigh, rfl,
      memAt_completed_ldBVx (k := 0) (by decide) hhigh hwf,
      memAt_completed_ldBVx (k := 1) (by decide) hhigh hwf,
      memAt_completed_ldBVx (k := 2) (by decide) hhigh hwf,
      fun _ ha => memAt_completed_ldBVx_outside ha hhigh hwf⟩

/-! ### The block transfers -/

theorem memAt_completed_ldMemVx_outside {x : RegIdx} {a : Nat} {s : State}
    (ha : a < memBase s ∨ memBase s + x.val < a) (hx : s.i.toNat + x.val ≤ 0xFFF)
    (hwf : Memory.wf s.cfg s.mem = true) : memAt a (completed (.ldMemVx x) s) = memAt a s := by
  refine memAt_storeBytes_outside (l := lowRegs x s) ?_ ?_ hwf <;> rw [lowRegs_length]
  · exact ha
  · exact Nat.succ_le_succ hx

/-- Settles O25: the law of the checked store for each range of `I`, then the bytes of the one store. -/
theorem blockStoreWritesRegisters : Obligations.BlockStoreWritesRegisters := by
  intro x s
  refine ⟨?_, execLdMemVx_of_reserved, execLdMemVx_of_high, fun hlow hhigh hwf => ?_⟩
  · exact decode_of_encode_eq (encodeXK_eq_ofNat 0xF x 0x55) rfl
  · exact ⟨completed (.ldMemVx x) s, execLdMemVx_of_storable hlow hhigh, rfl,
      fun _ hj => memAt_completed_ldMemVx hj hhigh hwf,
      fun _ ha => memAt_completed_ldMemVx_outside ha hhigh hwf⟩

/-- R126: `V[j]` after `LD Vx, [I]` is the byte at `I + j`, for every `j` up to `x`. -/
theorem readV_completed_ldVxMem_loaded {x j : RegIdx} (s : State) (h : j ≤ x) :
    readV j (completed (.ldVxMem x) s) = memAt (memBase s + j.val) s := by
  have hj : j.val < x.val + 1 := Nat.lt_succ_of_le h
  simp only [readV, completed, advance_v, setRegs_getElem, loadBytes_length, loadBytes_getElem]
  rw [dif_pos (by omega), Nat.sub_zero]

theorem readV_completed_ldVxMem_eq_ite (x j : RegIdx) (s : State) :
    readV j (completed (.ldVxMem x) s) =
      if j ≤ x then memAt (memBase s + j.val) s else readV j s := by
  split
  case isTrue h => exact readV_completed_ldVxMem_loaded s h
  case isFalse h => exact readV_completed_ldVxMem s h

/-- Settles O26: the law of the checked load for each range of `I`, then the registers of the one load. -/
theorem blockLoadReadsRegisters : Obligations.BlockLoadReadsRegisters := by
  intro x s
  refine ⟨?_, execLdVxMem_of_high, fun hhigh => ?_⟩
  · exact decode_of_encode_eq (encodeXK_eq_ofNat 0xF x 0x65) rfl
  · exact ⟨completed (.ldVxMem x) s, execLdVxMem_of_readable hhigh, rfl,
      fun j => readV_completed_ldVxMem_eq_ite x j s⟩

/-- Settles O27: the store leaves `I`, so the load reads the bytes that the store wrote. -/
theorem blockStoreThenLoadRestores : Obligations.BlockStoreThenLoadRestores := by
  intro x s t u hwf hlow hhigh hstore
  have ht : completed (.ldMemVx x) s = t :=
    Host.Outcome.next.inj ((execLdMemVx_of_storable hlow hhigh).symm.trans hstore)
  subst ht
  refine ⟨_, execLdVxMem_of_readable hhigh, fun j => ?_⟩
  refine (readV_completed_ldVxMem_eq_ite x j { completed (.ldMemVx x) s with v := u.v }).trans ?_
  split
  case isTrue hj => exact memAt_completed_ldMemVx hj hhigh hwf
  case isFalse hj => rfl

end Sys2Proof.Machine

/-! ## Display (spec/43_display.md R141 to R145) -/

namespace Sys2Proof.Machine

/-! ### `CLS` and the accessors -/

/-- R143 as one update of the state. -/
theorem exec_cls (s : State) :
    exec .cls s =
      .next { s with
        pix := blankScreen
        events := s.events ++ if s.cfg.emitRedrawEvents then [.redraw] else []
        pc := s.pc + 2 } := by
  rw [exec, execCls, emitRedraw_eq]
  rfl

/-- Settles O29: `CLS` has no fault condition, and leaves the blank screen and its `Redraw`. -/
theorem clearScreen : Obligations.ClearScreen :=
  ⟨decode_of_encode_eq (i := .cls) rfl rfl,
    fun s => ⟨_, exec_cls s, rfl, pixAt_blankScreen, rfl⟩⟩

/-- Settles O40: the screen shown is the display buffer itself. -/
theorem accessorsArePure : Obligations.AccessorsArePure :=
  fun s _ => ⟨fun h => step_of_cons h, fun h => ⟨s.pix, step_of_cons h, fun _ _ => rfl⟩⟩

/-! ### The cells of a sprite, row by row -/

/-- The sprite's cells are the cells of its rows in order, each row's byte read from memory. -/
theorem spriteCells_loadBytes (x0 y0 a n : Nat) (s : State) :
    spriteCells x0 y0 (loadBytes a n s) =
      (List.range n).flatMap fun r => rowCells x0 (y0 + r) (memAt (a + r) s) := by
  induction n generalizing y0 a with
  | zero => rfl
  | succ n ih =>
    have hload : loadBytes a (n + 1) s = memAt a s :: loadBytes (a + 1) n s := rfl
    rw [hload, spriteCells, ih, List.range_succ_eq_map, List.flatMap_cons, List.flatMap_map]
    simp only [Nat.add_zero, Nat.succ_eq_add_one, Nat.add_right_comm _ 1, ← Nat.add_assoc]

theorem mem_drawnCells_iff_covers {x y : RegIdx} {n : Fin 16} {s : State} {px : Fin 64}
    {py : Fin 32} : (px, py) ∈ drawnCells x y n s ↔ Claims.covers s x y n px py := by
  have hfin : ∀ {m : Nat} [NeZero m] (p : Fin m) (k : Nat), p = Fin.ofNat m k ↔ k % m = p.val :=
    fun p k => by rw [Fin.ext_iff, eq_comm]; rfl
  simp only [drawnCells, spriteCells_loadBytes, List.mem_flatMap, List.mem_range, mem_rowCells, hfin]
  constructor
  · rintro ⟨r, hr, c, hc, hbit, hx, hy⟩
    exact ⟨r, c, hr, hc, hbit, hx, hy⟩
  · rintro ⟨r, c, hr, hc, hbit, hx, hy⟩
    exact ⟨r, hr, c, hc, hbit, hx, hy⟩

theorem map_pixelSet_drawnCells (x y : RegIdx) (n : Fin 16) (s : State) :
    ((drawnCells x y n s).map fun c => Event.pixelSet c.1 c.2 (!pixAt c.1 c.2 s.pix)) =
      Claims.pixelEvents s x y n := by
  rw [drawnCells, spriteCells_loadBytes, List.map_flatMap]
  refine List.flatMap_congr fun r _ => ?_
  rw [rowCells, List.map_filterMap]
  refine List.filterMap_congr fun c _ => ?_
  exact apply_ite (Option.map _) _ _ _

/-! ### What a `DRW` that raises no fault leaves -/

section
variable (x y : RegIdx) (n : Fin 16) (s : State)

theorem completed_drw_frame :
    completed (.drw x y n) s =
      { s with
        v := (completed (.drw x y n) s).v
        pix := (completed (.drw x y n) s).pix
        events := (completed (.drw x y n) s).events
        pc := s.pc + 2 } := by
  simp only [completed, emitRedraw_eq]
  rfl

theorem pixAt_completed_drw (px : Fin 64) (py : Fin 32) :
    pixAt px py (completed (.drw x y n) s).pix =
      if (px, py) ∈ drawnCells x y n s then !pixAt px py s.pix else pixAt px py s.pix := by
  rw [completed, advance_pix, emitRedraw_pix, writeV_pix]
  exact drawCells_pix (drawnCells_nodup x y n s) px py

theorem readV_flag_completed_drw :
    readV 0xF (completed (.drw x y n) s) =
      flagByte (drawSprite (drawnCells x y n s) s).collision := by
  rw [completed, readV_advance, readV_emitRedraw, readV_writeV]
  exact if_pos rfl

theorem collision_iff_covers :
    (drawSprite (drawnCells x y n s) s).collision = true ↔
      ∃ px py, Claims.covers s x y n px py ∧ pixAt px py s.pix = true := by
  simp only [drawSprite, drawCells_collision (drawnCells_nodup x y n s), Bool.false_eq_true,
    false_or, Prod.exists, mem_drawnCells_iff_covers]

theorem drawSprite_events :
    (drawSprite (drawnCells x y n s) s).events =
      s.events ++ if s.cfg.emitPixelEvents then Claims.pixelEvents s x y n else [] := by
  rw [← map_pixelSet_drawnCells]
  exact drawCells_events (drawnCells_nodup x y n s)

theorem completed_drw_events :
    (completed (.drw x y n) s).events = s.events ++ Claims.drawEvents s x y n := by
  calc (completed (.drw x y n) s).events
      = (drawSprite (drawnCells x y n s) s).events ++
          if s.cfg.emitRedrawEvents then [.redraw] else [] := by rw [completed, emitRedraw_eq]; rfl
    _ = s.events ++ Claims.drawEvents s x y n := by
      rw [drawSprite_events, List.append_assoc, Claims.drawEvents]

end

theorem pixAt_completed_drw_of_covers {x y : RegIdx} {n : Fin 16} {s : State} {px : Fin 64}
    {py : Fin 32} (h : Claims.covers s x y n px py) :
    pixAt px py (completed (.drw x y n) s).pix = !pixAt px py s.pix :=
  (pixAt_completed_drw x y n s px py).trans (if_pos (mem_drawnCells_iff_covers.2 h))

theorem pixAt_completed_drw_of_not_covers {x y : RegIdx} {n : Fin 16} {s : State} {px : Fin 64}
    {py : Fin 32} (h : ¬Claims.covers s x y n px py) :
    pixAt px py (completed (.drw x y n) s).pix = pixAt px py s.pix :=
  (pixAt_completed_drw x y n s px py).trans (if_neg (mt mem_drawnCells_iff_covers.1 h))

/-- VF is 1 where the sprite covers a cell that is ON, and 0 where it covers none. -/
theorem flag_completed_drw_eq_one {x y : RegIdx} {n : Fin 16} {s : State}
    (h : ∃ px py, Claims.covers s x y n px py ∧ pixAt px py s.pix = true) :
    readV 0xF (completed (.drw x y n) s) = 1 := by
  rw [readV_flag_completed_drw, (collision_iff_covers x y n s).2 h]
  rfl

theorem flag_completed_drw_eq_zero {x y : RegIdx} {n : Fin 16} {s : State}
    (h : ¬∃ px py, Claims.covers s x y n px py ∧ pixAt px py s.pix = true) :
    readV 0xF (completed (.drw x y n) s) = 0 := by
  rw [readV_flag_completed_drw, Bool.eq_false_iff.2 (mt (collision_iff_covers x y n s).1 h)]
  rfl

/-- Settles O30: the law of the checked drawing for each range of `I`, then the loop over the sprite's
cells, each drawn once. -/
theorem drawXorsSpriteAndReportsCollision : Obligations.DrawXorsSpriteAndReportsCollision := by
  intro x y n s
  refine ⟨?_, execDrw_of_high, fun hread => ?_⟩
  · exact decode_of_encode_eq (encodeXY_eq_ofNat 0xD x y (nibble n)) rfl
  · exact ⟨completed (.drw x y n) s, execDrw_of_readable hread, completed_drw_frame x y n s,
      fun _ _ => pixAt_completed_drw_of_covers, fun _ _ => pixAt_completed_drw_of_not_covers,
      flag_completed_drw_eq_one, flag_completed_drw_eq_zero,
      fun _ hj => readV_completed_drw s hj, completed_drw_events x y n s⟩

/-! ### Drawing twice -/

section
variable {x y : RegIdx} {n : Fin 16} {s : State} (hx : x ≠ 0xF) (hy : y ≠ 0xF)
include hx hy

/-- A drawing leaves what the next one reads: `I`, memory and the coordinate registers. -/
theorem drawnCells_completed_drw :
    drawnCells x y n (completed (.drw x y n) s) = drawnCells x y n s := by
  have hload : loadBytes (memBase (completed (.drw x y n) s)) n.val (completed (.drw x y n) s) =
      loadBytes (memBase s) n.val s := by
    rw [completed_drw_frame]
    rfl
  rw [drawnCells, readV_completed_drw s hx, readV_completed_drw s hy, hload, drawnCells]

theorem covers_completed_drw (px : Fin 64) (py : Fin 32) :
    Claims.covers (completed (.drw x y n) s) x y n px py ↔ Claims.covers s x y n px py := by
  rw [← mem_drawnCells_iff_covers, drawnCells_completed_drw hx hy, mem_drawnCells_iff_covers]

/-- Inverting the same cells twice restores the buffer. -/
theorem completed_drw_twice_pix :
    (completed (.drw x y n) (completed (.drw x y n) s)).pix = s.pix := by
  refine screen_ext fun px py => ?_
  by_cases hc : Claims.covers s x y n px py
  · rw [pixAt_completed_drw_of_covers ((covers_completed_drw hx hy px py).2 hc),
      pixAt_completed_drw_of_covers hc, Bool.not_not]
  · rw [pixAt_completed_drw_of_not_covers (mt (covers_completed_drw hx hy px py).1 hc),
      pixAt_completed_drw_of_not_covers hc]

/-- After a drawing a covered cell is ON exactly where it was OFF before. -/
theorem covers_on_completed_drw :
    (∃ px py, Claims.covers (completed (.drw x y n) s) x y n px py ∧
        pixAt px py (completed (.drw x y n) s).pix = true) ↔
      ∃ px py, Claims.covers s x y n px py ∧ pixAt px py s.pix = false := by
  refine exists₂_congr fun px py => ?_
  rw [covers_completed_drw hx hy]
  exact and_congr_right fun hc => by rw [pixAt_completed_drw_of_covers hc, Bool.not_eq_true']

end

/-- Settles O31: the first drawing leaves `I`, so both are readable, and what the second finds ON the
first found OFF. -/
theorem drawingTwiceRestores : Obligations.DrawingTwiceRestores := by
  intro x y n s t u hx hy hread ht hu
  obtain rfl : completed (.drw x y n) s = t :=
    Host.Outcome.next.inj ((execDrw_of_readable hread).symm.trans ht)
  have hread' : n.val = 0 ∨ (completed (.drw x y n) s).i.toNat + n.val - 1 ≤ 0xFFF := by
    rwa [completed_drw_frame]
  obtain rfl : completed (.drw x y n) (completed (.drw x y n) s) = u :=
    Host.Outcome.next.inj ((execDrw_of_readable hread').symm.trans hu)
  have hon := covers_on_completed_drw (n := n) (s := s) hx hy
  exact ⟨completed_drw_twice_pix hx hy, fun h => flag_completed_drw_eq_one (hon.2 h),
    fun h => flag_completed_drw_eq_zero (mt hon.1 h)⟩

/-! ### Outputs influence no later step -/

theorem commands_cases (s : State) : s.commands = [] ∨ ∃ c cs, s.commands = c :: cs := by
  cases s.commands with
  | nil => exact .inl rfl
  | cons c cs => exact .inr ⟨c, cs, rfl⟩

/-- Every command discards the old response and events before it does anything. -/
theorem serve_with_outputs (c : Command) (s : State) (r : Option Response) (e : List Event) :
    serve c { s with response := r, events := e } = serve c s := by
  cases c <;> rfl

/-- Settles O54, by whether the environment's list of commands is empty. -/
theorem outputsInfluenceNothing : Obligations.OutputsInfluenceNothing := by
  intro s r e
  obtain h | ⟨c, cs, h⟩ := commands_cases s
  · rw [step_of_nil h, step_of_nil (s := { s with response := r, events := e }) h]
    rfl
  · rw [step_of_cons h, step_of_cons (s := { s with response := r, events := e }) h]
    exact serve_with_outputs c { s with commands := cs } r e

/-! ### The event parameters -/

/-- The parameters, with the two event parameters at `p` and `q`. -/
def eventConfig (p q : Bool) (c : Config) : Config :=
  { c with emitPixelEvents := p, emitRedrawEvents := q }

/-- The machine under other parameters. -/
def State.withConfig (c : Config) (s : State) : State := { s with cfg := c }

/-- The machine with the two event parameters at `p` and `q`. -/
def State.withEventConfig (p q : Bool) (s : State) : State :=
  s.withConfig (eventConfig p q s.cfg)

/-! #### Memory depends on the parameters only through what `init` leaves -/

section
variable {c c' : Config} (h : initByte c' = initByte c)
include h

theorem Memory.read_congr (m : Memory) (a : Nat) : Memory.read c' m a = Memory.read c m a := by
  induction m with
  | nil => exact congrFun h a
  | cons b m ih => simp only [Memory.read, ih]

theorem Memory.write_congr (m : Memory) (a : Nat) (v : Byte) :
    Memory.write c' m a v = Memory.write c m a v := by
  induction m with
  | nil => simp only [Memory.write, h]
  | cons b m ih => simp only [Memory.write, h, ih]

theorem Memory.writeBytes_congr (m : Memory) (a : Nat) (l : List Byte) :
    Memory.writeBytes c' m a l = Memory.writeBytes c m a l := by
  induction l generalizing m a with
  | nil => rfl
  | cons v l ih => simp only [Memory.writeBytes, Memory.write_congr h, ih]

theorem Memory.readBytes_congr (m : Memory) (a n : Nat) :
    Memory.readBytes c' m a n = Memory.readBytes c m a n := by
  induction n generalizing a with
  | zero => rfl
  | succ n ih => simp only [Memory.readBytes, Memory.read_congr h, ih]

end

/-! #### The shared operations -/

section
variable (p q : Bool) (s : State)

theorem initByte_eventConfig (c : Config) : initByte (eventConfig p q c) = initByte c := rfl

theorem memAt_withEventConfig (a : Nat) : memAt a (s.withEventConfig p q) = memAt a s :=
  Memory.read_congr (initByte_eventConfig p q s.cfg) s.mem a

theorem loadBytes_withEventConfig (a n : Nat) :
    loadBytes a n (s.withEventConfig p q) = loadBytes a n s :=
  Memory.readBytes_congr (initByte_eventConfig p q s.cfg) s.mem a n

theorem storeBytes_withEventConfig (a : Nat) (l : List Byte) :
    storeBytes a l (s.withEventConfig p q) = (storeBytes a l s).withEventConfig p q :=
  congrArg (fun m => { s.withEventConfig p q with mem := m })
    (Memory.writeBytes_congr (initByte_eventConfig p q s.cfg) s.mem a l)

theorem drawnCells_withEventConfig (x y : RegIdx) (n : Fin 16) :
    drawnCells x y n (s.withEventConfig p q) = drawnCells x y n s :=
  congrArg (spriteCells _ _) (loadBytes_withEventConfig p q s (memBase s) n.val)

theorem wordAtPc_withEventConfig : Claims.wordAtPc (s.withEventConfig p q) = Claims.wordAtPc s :=
  congrArg₂ (fun hi lo : Byte => hi.toNat * 0x100 + lo.toNat)
    (memAt_withEventConfig p q s s.pc.toNat) (memAt_withEventConfig p q s (s.pc.toNat + 1))

theorem instrFault_withEventConfig (i : Instr) :
    Claims.instrFault i (s.withEventConfig p q) = Claims.instrFault i s := rfl

theorem cycleFault_withEventConfig :
    Claims.cycleFault (s.withEventConfig p q) = Claims.cycleFault s := by
  simp only [Claims.cycleFault, wordAtPc_withEventConfig, instrFault_withEventConfig]
  rfl

theorem tickTimers_withEventConfig :
    tickTimers (s.withEventConfig p q) = (tickTimers s).withConfig (eventConfig p q s.cfg) := by
  rw [tickTimers, tickTimers, apply_ite (State.withConfig _)]
  rfl

theorem pressKey_withEventConfig (k : KeyIdx) :
    pressKey k (s.withEventConfig p q) = (pressKey k s).withConfig (eventConfig p q s.cfg) := by
  rw [pressKey, pressKey, apply_ite (State.withConfig _)]
  rfl

theorem loadRom_withEventConfig (bytes : List Byte) :
    loadRom bytes (s.withEventConfig p q) =
      (loadRom bytes s).withConfig (eventConfig p q s.cfg) := by
  rw [loadRom, loadRom, storeBytes_withEventConfig, apply_ite (State.withConfig _)]
  rfl

/-! #### The step -/

theorem completed_withEventConfig (i : Instr) :
    ∃ e, completed i (s.withEventConfig p q) =
      { completed i s with cfg := eventConfig p q s.cfg, events := e } := by
  cases i with
  | drw x y n =>
    obtain ⟨hpix, hcollision⟩ :
        (drawSprite (drawnCells x y n s) (s.withEventConfig p q)).pix =
            (drawSprite (drawnCells x y n s) s).pix ∧
          (drawSprite (drawnCells x y n s) (s.withEventConfig p q)).collision =
            (drawSprite (drawnCells x y n s) s).collision :=
      drawCells_parameter _ _ rfl rfl
    simp only [completed, emitRedraw_eq, drawnCells_withEventConfig, hpix, hcollision]
    exact ⟨_, rfl⟩
  | ldBVx x => exact ⟨_, congrArg advance (storeBytes_withEventConfig p q s _ _)⟩
  | ldMemVx x => exact ⟨_, congrArg advance (storeBytes_withEventConfig p q s _ _)⟩
  | ldVxMem x =>
    simp only [completed, loadBytes_withEventConfig]
    exact ⟨_, rfl⟩
  | _ =>
    simp only [completed, skipIf_eq, emitRedraw_eq, consumeRandom_eq]
    exact ⟨_, rfl⟩

end

theorem runCycle_of_not_running {s : State} (h : s.rs ≠ .running) : runCycle s = .next s := by
  cases hr : s.rs with
  | running => exact absurd hr h
  | waitingForInput => exact runCycle_of_waiting hr
  | terminal kind => exact runCycle_of_terminal hr

theorem runCycle_withEventConfig (p q : Bool) {s t : State} (h : runCycle s = .next t) :
    ∃ e, runCycle (s.withEventConfig p q) =
      .next { t with cfg := eventConfig p q s.cfg, events := e } := by
  obtain ⟨hr, rfl⟩ | ⟨hr, kind, hf, -, rfl⟩ | ⟨hr, -, i, hp, hd, hf, rfl⟩ := runCycle_cases h
  · exact ⟨_, runCycle_of_not_running (s := t.withEventConfig p q) hr⟩
  · rw [← cycleFault_withEventConfig p q] at hf
    exact ⟨_, runCycle_of_fault hr hf⟩
  · obtain ⟨e, he⟩ := completed_withEventConfig p q s i
    have hfetch := fetch_eq_wordAtPc (s := s.withEventConfig p q) hp
    rw [wordAtPc_withEventConfig] at hfetch
    refine ⟨e, (runCycle_of_instr (s := s.withEventConfig p q) hr hfetch hd).trans ?_⟩
    rw [exec_of_noFault (s := s.withEventConfig p q) hf, he]

theorem cycle_withEventConfig (p q : Bool) {rand : Option Byte} {s t : State}
    (h : cycle rand s = .next t) :
    ∃ e, cycle rand (s.withEventConfig p q) =
      .next { t with cfg := eventConfig p q s.cfg, events := e } := by
  obtain ⟨u, hu, rfl⟩ := cycle_next h
  obtain ⟨e, he⟩ := runCycle_withEventConfig p q hu
  exact ⟨e, congrArg (onNext endCycle) he⟩

theorem serve_withEventConfig (p q : Bool) {c : Command} {s t : State} (h : serve c s = .next t) :
    ∃ e, serve c (s.withEventConfig p q) =
      .next { t with cfg := eventConfig p q s.cfg, events := e } := by
  cases c with
  | cycle rand => exact cycle_withEventConfig p q h
  | loadRom bytes =>
    obtain rfl := Host.Outcome.next.inj h
    exact ⟨_, congrArg Host.Outcome.next (loadRom_withEventConfig p q (beginCommand s) bytes)⟩
  | tickTimers =>
    obtain rfl := Host.Outcome.next.inj h
    exact ⟨_, congrArg Host.Outcome.next (tickTimers_withEventConfig p q (beginCommand s))⟩
  | pressKey k =>
    obtain rfl := Host.Outcome.next.inj h
    exact ⟨_, congrArg Host.Outcome.next (pressKey_withEventConfig p q (beginCommand s) k)⟩
  | init | releaseKey | getRunState | getScreen =>
    obtain rfl := Host.Outcome.next.inj h
    exact ⟨_, rfl⟩

/-- Settles O55: no operation of a step but the emission of events reads the two parameters. -/
theorem eventParametersChangeOnlyEvents : Obligations.EventParametersChangeOnlyEvents := by
  intro s t p q h
  obtain hc | ⟨c, cs, hc⟩ := commands_cases s
  · rw [step_of_nil hc] at h
    obtain ⟨e, he⟩ := cycle_withEventConfig p q h
    exact ⟨e, (step_of_nil (s := s.withEventConfig p q) hc).trans he⟩
  · rw [step_of_cons hc] at h
    obtain ⟨e, he⟩ := serve_withEventConfig p q h
    exact ⟨e, (step_of_cons (s := s.withEventConfig p q) hc).trans he⟩

end Sys2Proof.Machine

/-! ## Timers and keypad (spec/44_timers_keypad.md R160 to R170) -/

namespace Sys2Proof.Machine

/-! ### The timers -/

/-- Settles O32: the read is one `writeV`, and each write is one assignment of a timer. -/
theorem timerTransfers : Obligations.TimerTransfers := by
  intro x s
  refine ⟨?_, writesReg_advance_writeV s rfl, ?_, rfl, ?_, rfl⟩
  · exact decode_of_encode_eq (encodeXK_eq_ofNat 0xF x 0x07) rfl
  · exact decode_of_encode_eq (encodeXK_eq_ofNat 0xF x 0x15) rfl
  · exact decode_of_encode_eq (encodeXK_eq_ofNat 0xF x 0x18) rfl

theorem tickTimers_frame (s : State) :
    tickTimers s = { s with dt := (tickTimers s).dt, st := (tickTimers s).st } := by
  unfold tickTimers
  split <;> rfl

theorem tickTimers_toNat_of_running {s : State} (h : s.rs = .running) :
    (tickTimers s).dt.toNat = s.dt.toNat - 1 ∧ (tickTimers s).st.toNat = s.st.toNat - 1 := by
  rw [tickTimers_dt, tickTimers_st, if_pos h, if_pos h]
  exact ⟨countDown_toNat s.dt, countDown_toNat s.st⟩

theorem tickTimers_keeps_of_not_running {s : State} (h : s.rs ≠ .running) :
    (tickTimers s).dt = s.dt ∧ (tickTimers s).st = s.st := by
  rw [tickTimers_dt, tickTimers_st, if_neg h, if_neg h]
  exact ⟨rfl, rfl⟩

/-- Settles O36: `tickTimers` applies `countDown` to both timers exactly while `RUNNING`. -/
theorem tickCountsDownWhileRunning : Obligations.TickCountsDownWhileRunning :=
  fun _ _ hc => ⟨_, step_of_cons hc, tickTimers_frame _,
    fun hrun => tickTimers_toNat_of_running hrun,
    fun hstill => tickTimers_keeps_of_not_running hstill⟩

/-! ### The keys -/

theorem setKey_getElem (k j : KeyIdx) (b : Bool) (s : State) :
    (setKey k b s).key[j.val] = if j = k then b else s.key[j.val] := by
  simp only [setKey_key, Vector.getElem_set, Fin.val_inj, eq_comm]

theorem keyAt_lowNibble {b : Byte} {k : KeyIdx} (s : State) (h : b.toNat % 16 = k.val) :
    keyAt (lowNibble b) s = s.key[k.val] := by
  have hk : lowNibble b = k := Fin.ext ((lowNibble_val b).trans h)
  rw [hk, keyAt]

/-- Settles O33: each skip is a `skipIf` of the level of the key that the low nibble selects. -/
theorem keySkips : Obligations.KeySkips := by
  intro x k s hk
  have hlevel := keyAt_lowNibble s hk
  refine ⟨?_, skipsWhen_skipIf s ?_, ?_, skipsWhen_skipIf s ?_⟩
  · exact decode_of_encode_eq (encodeXK_eq_ofNat 0xE x 0x9E) rfl
  · rw [hlevel]
  · exact decode_of_encode_eq (encodeXK_eq_ofNat 0xE x 0xA1) rfl
  · rw [hlevel, Bool.not_eq_true']

/-! ### `press_key` and `release_key` -/

theorem pressKey_frame (k : KeyIdx) (s : State) :
    pressKey k s =
      { s with key := (pressKey k s).key, v := (pressKey k s).v, rs := (pressKey k s).rs } := by
  unfold pressKey
  split <;> rfl

/-- The key is held in every run state, waiting or not. -/
@[simp] theorem pressKey_key (k : KeyIdx) (s : State) :
    (pressKey k s).key = (setKey k true s).key := by
  unfold pressKey
  split <;> rfl

theorem pressKey_of_waiting {s : State} (k : KeyIdx) (h : s.rs = .waitingForInput) :
    pressKey k s = { writeV s.wt (keyByte k) (setKey k true s) with rs := .running } :=
  if_pos h

theorem pressKey_rs_of_waiting {s : State} (k : KeyIdx) (h : s.rs = .waitingForInput) :
    (pressKey k s).rs = .running := by
  rw [pressKey_of_waiting k h]

theorem readV_pressKey_of_waiting {s : State} (k : KeyIdx) (j : RegIdx)
    (h : s.rs = .waitingForInput) :
    (readV j (pressKey k s)).toNat = if j = s.wt then k.val else (readV j s).toNat := by
  have hread : readV j (pressKey k s) = if j = s.wt then keyByte k else readV j s := by
    rw [pressKey_of_waiting k h]
    exact readV_writeV j s.wt (keyByte k) (setKey k true s)
  rw [hread, apply_ite BitVec.toNat, keyByte_toNat]

theorem pressKey_keeps_of_not_waiting {s : State} (k : KeyIdx) (h : s.rs ≠ .waitingForInput) :
    (pressKey k s).rs = s.rs ∧ (pressKey k s).v = s.v := by
  have hheld : pressKey k s = setKey k true s := if_neg h
  rw [hheld]
  exact ⟨rfl, rfl⟩

/-- Settles O37, for `press_key` by whether the engine waits for a key. -/
theorem keyCommands : Obligations.KeyCommands := by
  intro s cs k
  constructor
  · intro hc
    refine ⟨_, step_of_cons hc, pressKey_frame k _, fun j => ?_, fun hwait => ⟨?_, fun j => ?_⟩,
      fun hwait => ?_⟩
    · rw [pressKey_key]
      exact setKey_getElem k j true _
    · exact pressKey_rs_of_waiting k hwait
    · exact readV_pressKey_of_waiting k j hwait
    · exact pressKey_keeps_of_not_waiting k hwait
  · intro hc
    exact ⟨_, step_of_cons hc, rfl, fun j => setKey_getElem k j false _⟩

/-! ### The key wait -/

/-- Settles O34: the wait is entered by one record update that reads neither the keys nor `V`. -/
theorem keyWaitEntersWaiting : Obligations.KeyWaitEntersWaiting :=
  fun x _ => ⟨decode_of_encode_eq (encodeXK_eq_ofNat 0xF x 0x0A) rfl, rfl⟩

/-- A `cycle` during a wait is used up and does nothing else (60_exceptions.md R181). -/
theorem step_cycle_of_waiting {s : State} {rand : Byte} {cs : List Command}
    (hc : s.commands = .cycle rand :: cs) (hr : s.rs = .waitingForInput) :
    step s = .next (endCycle (beginCycle (some rand) { s with commands := cs })) :=
  (step_of_cons hc).trans (congrArg (onNext endCycle)
    (runCycle_of_waiting (s := beginCycle (some rand) { s with commands := cs }) hr))

/-- Any number of `cycle`s during a wait leaves the wait as it was: only the remaining commands, the
random operand and the outputs may differ when the next command's turn comes. -/
theorem run_cycles_of_waiting (rands : List Byte) (cs : List Command) (n : Nat) {s : State}
    (hc : s.commands = rands.map .cycle ++ cs) (hr : s.rs = .waitingForInput) :
    ∃ w : State, Host.Core.run core (rands.length + n) s = Host.Core.run core n w ∧
      w = { s with commands := cs, rand := w.rand, response := w.response, events := w.events } := by
  induction rands generalizing s with
  | nil =>
    refine ⟨s, congrArg (Host.Core.run core · s) (Nat.zero_add n), ?_⟩
    rw [← hc.trans (List.nil_append cs)]
  | cons rand rands ih =>
    obtain ⟨w, hrun, hw⟩ := ih
      (s := endCycle (beginCycle (some rand) { s with commands := rands.map .cycle ++ cs })) rfl hr
    refine ⟨w, ?_, hw⟩
    rw [List.length_cons, Nat.add_right_comm]
    exact (run_succ core _ (step_cycle_of_waiting hc hr)).trans hrun

/-- Settles O35: `keyWaitEntersWaiting` starts the wait, `run_cycles_of_waiting` brings it unchanged to
the press, and `keyCommands` ends it. -/
theorem keyWaitEndsWithPress : Obligations.KeyWaitEndsWithPress := by
  intro x k rands s t ht
  obtain rfl := Host.Outcome.next.inj ((keyWaitEntersWaiting x s).2.symm.trans ht)
  obtain ⟨w, hrun, hw⟩ := run_cycles_of_waiting rands [.pressKey k] 1 (s := { s with
    wt := x, rs := .waitingForInput, pc := s.pc + 2,
    commands := rands.map .cycle ++ [.pressKey k] }) rfl rfl
  have hwait : w.rs = .waitingForInput := by rw [hw]
  have hwt : w.wt = x := by rw [hw]
  have hregs : ∀ j, readV j w = readV j s := fun j => readV_congr (by rw [hw])
  obtain ⟨u, hu, hframe, hkey, hpress, -⟩ := (keyCommands w [] k).1 (by rw [hw])
  obtain ⟨hrunning, hcommit⟩ := hpress hwait
  refine ⟨u, hrun.trans (run_succ core 0 hu), hrunning, ?_, ?_, fun j => ?_⟩
  · calc u.pc = w.pc := by rw [hframe]
      _ = s.pc + 2 := by rw [hw]
  · rw [hkey k, if_pos rfl]
  · rw [hcommit j, hwt, hregs j]

end Sys2Proof.Machine

/-! ## Exceptions and run states (spec/60_exceptions.md R180 to R184, R201) -/

namespace Sys2Proof.Machine

/-! ### The response of a `cycle` -/

/-- Only a terminal run state is answered by a failure, and by its own. -/
theorem cycleResponse_eq_fail_iff {rs : RunState} {kind : FaultKind} :
    cycleResponse rs = .fail kind ↔ rs = .terminal kind := by
  cases rs <;> simp [cycleResponse]

/-- A step that serves a `cycle` ends where the work of the `cycle` ends, and answers the run state
found there. -/
theorem step_of_runCycle {s t : State} {rand : Option Byte} {cs : List Command} {resp : Response}
    (hc : Claims.cycleNext s rand cs) (h : runCycle (Claims.inCycle s rand cs) = .next t)
    (hresp : cycleResponse t.rs = resp) : step s = .next (Claims.responds t resp) := by
  subst hresp
  exact (step_of_cycleNext hc).trans (congrArg (onNext endCycle) h)

/-- The work a step that serves a `cycle` has done. -/
theorem runCycle_of_step {s t : State} {rand : Option Byte} {cs : List Command}
    (hc : Claims.cycleNext s rand cs) (h : step s = .next t) :
    ∃ u, runCycle (Claims.inCycle s rand cs) = .next u ∧ t = endCycle u :=
  cycle_next ((step_of_cycleNext hc).symm.trans h)

/-- R183 for one instruction: it completes live, so a terminal run state is that of its fault. -/
theorem exec_of_terminal {i : Instr} {s t : State} {kind : FaultKind} (hr : s.rs = .running)
    (h : exec i s = .next t) (ht : t.rs = .terminal kind) : t = { s with rs := .terminal kind } := by
  obtain ⟨kind', -, rfl⟩ | ⟨-, rfl⟩ := exec_cases h
  · cases ht
    rfl
  · exact absurd ht (completed_live (by simp [State.live, hr]) kind)

/-- Settles O5: the two bytes are fetched, and decode to `i` by `decodeOfEncodeIsIdentity`. -/
theorem stepRunsDecodedInstruction : Obligations.StepRunsDecodedInstruction := by
  intro s t rand cs i hc hr hp hwf hbytes ht
  have hfetch : fetch (Claims.inCycle s rand cs) = some (encode i) :=
    (fetch_of_le hp).trans (congrArg some hbytes)
  have hexec : runCycle (Claims.inCycle s rand cs) = exec i (Claims.inCycle s rand cs) :=
    runCycle_of_instr hr hfetch (decodeOfEncodeIsIdentity i hwf)
  have hwork := hexec.trans ht
  exact ⟨fun hlive => step_of_runCycle hc hwork (cycleResponse_of_live hlive),
    fun kind hk => step_of_runCycle hc hwork (cycleResponse_eq_fail_iff.2 hk)⟩

/-- Settles O6, by the run state and, while `RUNNING`, by how the fetch and the decoding end. -/
theorem cycleTopLevel : Obligations.CycleTopLevel := by
  intro s rand cs hc
  refine ⟨fun hwait => ?_, fun kind hterm => ?_, fun hrun hp => ?_, fun hrun hp =>
    ⟨fun why hd => ?_, fun i hd => ?_⟩⟩
  · exact step_of_runCycle hc (runCycle_of_waiting hwait) (congrArg cycleResponse hwait)
  · exact step_of_runCycle hc (runCycle_of_terminal hterm) (congrArg cycleResponse hterm)
  · exact step_of_raise hc (runCycle_of_unfetchable hrun hp)
  · exact step_of_raise hc (runCycle_of_invalid hrun (fetch_eq_wordAtPc hp) hd)
  · obtain ⟨t, ht⟩ := exec_answers i (Claims.inCycle s rand cs)
    have hwork : runCycle (Claims.inCycle s rand cs) = exec i (Claims.inCycle s rand cs) :=
      runCycle_of_instr hrun (fetch_eq_wordAtPc hp) hd
    refine ⟨t, ht, fun hlive => ?_, fun kind hk => ?_⟩
    · exact step_of_runCycle hc (hwork.trans ht) (cycleResponse_of_live hlive)
    · obtain rfl := exec_of_terminal (s := Claims.inCycle s rand cs) hrun ht hk
      exact step_of_raise hc (hwork.trans ht)

/-- Settles O43: a terminal end of a running `cycle` comes of the fault of `cycleFault`, which the
`cycle` raises. -/
theorem faultsChangeOnlyRunState : Obligations.FaultsChangeOnlyRunState := by
  refine ⟨fun i s t kind hr h hk => exec_of_terminal hr h hk,
    fun s t rand cs kind hc hr h hk => ?_⟩
  obtain ⟨u, hu, rfl⟩ := runCycle_of_step hc h
  have hf : Claims.cycleFault (Claims.inCycle s rand cs) = some kind :=
    cycleFault_of_runCycle_terminal hr hu hk
  exact Host.Outcome.next.inj (h.symm.trans (step_of_raise hc (runCycle_of_fault hr hf)))

/-! ### The transitions of `RS` -/

theorem completed_rs {i : Instr} (s : State) (h : ∀ x, i ≠ .ldVxK x) :
    (completed i s).rs = s.rs := by
  cases i with
  | ldVxK x => exact absurd rfl (h x)
  | _ => simp [completed]

/-- R180 for the work of a `cycle`. -/
theorem runCycle_rs {s t : State} (h : runCycle s = .next t) :
    (s.rs ≠ .running → t.rs = s.rs) ∧
    (s.rs = .running →
      (∀ kind, Claims.cycleFault s = some kind → t.rs = .terminal kind) ∧
      (Claims.cycleFault s = none →
        ((∃ x, decode (BitVec.ofNat 16 (Claims.wordAtPc s)) = .instr (.ldVxK x)) →
          t.rs = .waitingForInput) ∧
        ((¬∃ x, decode (BitVec.ofNat 16 (Claims.wordAtPc s)) = .instr (.ldVxK x)) →
          t.rs = .running))) := by
  obtain ⟨hr, rfl⟩ | ⟨hr, kind, hf, -, rfl⟩ | ⟨hr, hf, i, -, hd, -, rfl⟩ := runCycle_cases h
  · exact ⟨fun _ => rfl, fun hr' => absurd hr' hr⟩
  · refine ⟨absurd hr, fun _ => ⟨fun kind' hf' => ?_, fun hn => by simp [hf] at hn⟩⟩
    cases hf.symm.trans hf'
    rfl
  · refine ⟨absurd hr, fun _ => ⟨fun kind hk => by simp [hf] at hk, fun _ => ⟨?_, fun hwait => ?_⟩⟩⟩
    · rintro ⟨x, hx⟩
      cases hd.symm.trans hx
      rfl
    · exact (completed_rs s fun x hi => hwait ⟨x, hi ▸ hd⟩).trans hr

theorem cycleFault_ne_unsupported (s : State) :
    Claims.cycleFault s ≠ some .unsupportedOpcode := by
  unfold Claims.cycleFault
  repeat' split
  · nofun
  · nofun
  · exact instrFault_ne_unsupported _ s

@[simp] theorem pressKey_rs (k : KeyIdx) (s : State) :
    (pressKey k s).rs = if s.rs = .waitingForInput then .running else s.rs := by
  split
  case isTrue h => exact pressKey_rs_of_waiting k h
  case isFalse h => exact (pressKey_keeps_of_not_waiting k h).1

theorem loadRom_frame (bytes : List Byte) (s : State) :
    loadRom bytes s =
      { s with mem := (loadRom bytes s).mem, response := (loadRom bytes s).response } := by
  unfold loadRom
  split <;> rfl

@[simp] theorem loadRom_rs (bytes : List Byte) (s : State) : (loadRom bytes s).rs = s.rs := by
  rw [loadRom_frame]

/-- What a step answers is what serving the head of the environment's list answers. -/
theorem serve_of_step {s t : State} {c : Command} {cs : List Command} (h : step s = .next t)
    (hc : s.commands = c :: cs) : serve c { s with commands := cs } = .next t :=
  (step_of_cons hc).symm.trans h

/-- No command but `cycle` enters a terminal state. -/
theorem serve_live {c : Command} {s t : State} (hc : ∀ b, c ≠ .cycle b) (hs : s.live)
    (h : serve c s = .next t) : t.live := by
  intro kind
  cases c with
  | cycle b => exact absurd rfl (hc b)
  | init =>
    cases h
    exact nofun
  | pressKey k =>
    cases h
    by_cases hwait : (beginCommand s).rs = .waitingForInput
    · rw [pressKey_rs_of_waiting k hwait]
      exact nofun
    · rw [(pressKey_keeps_of_not_waiting k hwait).1]
      exact hs kind
  | loadRom | tickTimers | releaseKey | getRunState | getScreen =>
    cases h
    simpa [releaseKey] using hs kind

/-- A step serves a `cycle` or another command of the environment's list. -/
theorem cycleNext_or_cons (s : State) :
    (∃ rand cs, Claims.cycleNext s rand cs) ∨
      ∃ c cs, s.commands = c :: cs ∧ ∀ b, c ≠ .cycle b := by
  obtain hc | ⟨c, cs, hc⟩ := commands_cases s
  · exact .inl ⟨none, [], .inl ⟨hc, rfl, rfl⟩⟩
  · cases c with
    | cycle b => exact .inl ⟨some b, cs, .inr ⟨b, hc, rfl⟩⟩
    | _ => exact .inr ⟨_, cs, hc, fun _ => nofun⟩

/-- R180: only a `cycle` of a running machine enters a terminal state, by a fault that some rule
raises. -/
theorem step_enters_terminal {s t : State} {kind : FaultKind} (h : step s = .next t) (hs : s.live)
    (hk : t.rs = .terminal kind) :
    kind ≠ .unsupportedOpcode ∧ s.rs = .running ∧ ∃ rand cs, Claims.cycleNext s rand cs := by
  obtain ⟨rand, cs, hc⟩ | ⟨c, cs, hc, hcycle⟩ := cycleNext_or_cons s
  · obtain ⟨u, hu, rfl⟩ := runCycle_of_step hc h
    have hr : s.rs = .running := by
      by_contra hr
      exact hs kind (((runCycle_rs hu).1 hr).symm.trans hk)
    refine ⟨?_, hr, rand, cs, hc⟩
    rintro rfl
    have hf := cycleFault_of_runCycle_terminal (s := Claims.inCycle s rand cs) hr hu hk
    exact cycleFault_ne_unsupported _ hf
  · exact absurd hk (serve_live (s := { s with commands := cs }) hcycle hs (serve_of_step h hc) kind)

/-- Settles O44: a `cycle` changes `RS` as its work does, and every other command by its own update. -/
theorem runStateTransitions : Obligations.RunStateTransitions := by
  intro s t h
  refine ⟨fun cs hc => ?_, fun k cs hc => ?_, fun bytes cs hc => ?_, fun cs hc => ?_,
    fun k cs hc => ?_, fun cs hc => ?_, fun cs hc => ?_, fun rand cs hc => ?_,
    fun hs kind hk => step_enters_terminal h hs hk⟩
  · cases serve_of_step h hc
    rfl
  · cases serve_of_step h hc
    exact pressKey_rs k _
  · cases serve_of_step h hc
    exact loadRom_rs bytes _
  · cases serve_of_step h hc
    exact tickTimers_rs _
  · cases serve_of_step h hc
    rfl
  · cases serve_of_step h hc
    rfl
  · cases serve_of_step h hc
    rfl
  · obtain ⟨u, hu, rfl⟩ := runCycle_of_step hc h
    obtain ⟨hstill, hrun⟩ := runCycle_rs hu
    refine ⟨hstill, hrun, fun kind => ?_⟩
    rw [endCycle_rs, endCycle_response, Option.some_inj, cycleResponse_eq_fail_iff]

/-! ### Terminal states -/

theorem tickTimers_of_not_running {s : State} (h : s.rs ≠ .running) : tickTimers s = s := if_neg h

theorem cycle_of_terminal {rand : Option Byte} {s : State} {kind : FaultKind}
    (h : s.rs = .terminal kind) : cycle rand s = .next (endCycle (beginCycle rand s)) :=
  congrArg (onNext endCycle) (runCycle_of_terminal (s := beginCycle rand s) h)

/-- The frame of R184: `t` emits no event and differs from `s` at most in `Key`, `Mem`, the operand and
the outputs. -/
def SameButKeyAndMem (s t : State) : Prop :=
  t = { s with key := t.key, mem := t.mem, response := t.response, events := [], rand := t.rand }

/-- R184 command by command. -/
theorem serve_of_terminal {c : Command} {s t : State} {kind : FaultKind}
    (hr : s.rs = .terminal kind) (hinit : c ≠ .init) (h : serve c s = .next t) :
    SameButKeyAndMem s t ∧ ((∀ k, c ≠ .pressKey k ∧ c ≠ .releaseKey k) → t.key = s.key) ∧
      ((∀ bytes, c ≠ .loadRom bytes) → t.mem = s.mem) := by
  cases c with
  | init => exact absurd rfl hinit
  | cycle b =>
    cases (cycle_of_terminal hr).symm.trans h
    exact ⟨rfl, fun _ => rfl, fun _ => rfl⟩
  | loadRom bytes =>
    cases h
    rw [loadRom_frame]
    exact ⟨rfl, fun _ => rfl, fun hload => absurd rfl (hload bytes)⟩
  | pressKey k =>
    have hheld : pressKey k (beginCommand s) = setKey k true (beginCommand s) :=
      if_neg (by simp [hr])
    cases h
    rw [hheld]
    exact ⟨rfl, fun hkey => absurd rfl (hkey k).1, fun _ => rfl⟩
  | releaseKey k =>
    cases h
    exact ⟨rfl, fun hkey => absurd rfl (hkey k).2, fun _ => rfl⟩
  | tickTimers =>
    cases h
    rw [tickTimers_of_not_running (by simp [hr])]
    exact ⟨rfl, fun _ => rfl, fun _ => rfl⟩
  | getRunState | getScreen =>
    cases h
    exact ⟨rfl, fun _ => rfl, fun _ => rfl⟩

/-- R184 for the step: an empty list of commands is a `cycle`. -/
theorem step_of_terminal {s t : State} {kind : FaultKind} (hr : s.rs = .terminal kind)
    (hinit : ∀ cs, s.commands ≠ .init :: cs) (h : step s = .next t) :
    SameButKeyAndMem { s with commands := s.commands.tail } t ∧
      ((∀ k cs, s.commands ≠ .pressKey k :: cs ∧ s.commands ≠ .releaseKey k :: cs) →
        t.key = s.key) ∧
      ((∀ bytes cs, s.commands ≠ .loadRom bytes :: cs) → t.mem = s.mem) := by
  obtain hc | ⟨c, cs, hc⟩ := commands_cases s
  · cases (cycle_of_terminal hr).symm.trans ((step_of_nil hc).symm.trans h)
    refine ⟨?_, fun _ => rfl, fun _ => rfl⟩
    rw [hc, List.tail_nil, ← hc]
    rfl
  · obtain ⟨hframe, hkey, hmem⟩ := serve_of_terminal (s := { s with commands := cs }) hr
      (fun hi => hinit cs (hi ▸ hc)) (serve_of_step h hc)
    refine ⟨?_, fun hk => hkey fun k => ?_, fun hl => hmem fun bytes hb => hl bytes cs (hb ▸ hc)⟩
    · rw [hc, List.tail_cons]
      exact hframe
    · exact ⟨fun hp => (hk k cs).1 (hp ▸ hc), fun hp => (hk k cs).2 (hp ▸ hc)⟩

/-- Settles O45: the frame is `step_of_terminal`, the failure is `cycleTopLevel`'s, and the accessors
return what they read. -/
theorem terminalStatesAreFrozen : Obligations.TerminalStatesAreFrozen := by
  intro s t kind hr h hinit
  obtain ⟨hframe, hkey, hmem⟩ := step_of_terminal hr hinit h
  refine ⟨hframe, hkey, hmem, fun rand cs hc => ?_, fun cs hc => ?_, fun cs hc => ?_⟩
  · obtain ⟨-, hterminal, -⟩ := cycleTopLevel s rand cs hc
    cases (hterminal kind hr).symm.trans h
    rfl
  · cases serve_of_step h hc
    exact congrArg (some ∘ Response.runState) hr
  · cases serve_of_step h hc
    rfl

/-! ### The reserved region over a run -/

/-- What every step keeps holds at the end of every run. -/
theorem run_keeps {P : State → Prop} (hstep : ∀ s t, P s → step s = .next t → P t) {m : Nat}
    {s t : State} (hs : P s) (h : Host.Core.run core m s = .next t) : P t := by
  induction m generalizing s with
  | zero =>
    cases h
    exact hs
  | succ m ih =>
    obtain ⟨u, hu⟩ := everyStepAnswersNext s
    exact ih (hstep s u hs hu) ((run_succ core m hu).symm.trans h)

theorem cycle_keeps_cfg {rand : Option Byte} {s t : State} (h : cycle rand s = .next t) :
    t.cfg = s.cfg := by
  obtain ⟨u, hu, rfl⟩ := cycle_next h
  obtain ⟨-, rfl⟩ | ⟨-, kind, -, -, rfl⟩ | ⟨-, -, i, -, -, -, rfl⟩ := runCycle_cases hu
  · rfl
  · rfl
  · exact completed_cfg i (beginCycle rand s)

theorem serve_keeps_cfg {c : Command} {s t : State} (h : serve c s = .next t) : t.cfg = s.cfg := by
  cases c with
  | cycle b => exact cycle_keeps_cfg h
  | loadRom bytes =>
    cases h
    rw [loadRom_frame, beginCommand_cfg]
  | pressKey k =>
    cases h
    rw [pressKey_frame, beginCommand_cfg]
  | tickTimers =>
    cases h
    rw [tickTimers_cfg, beginCommand_cfg]
  | init | releaseKey | getRunState | getScreen =>
    cases h
    rfl

theorem step_keeps_cfg {s t : State} (h : step s = .next t) : t.cfg = s.cfg := by
  obtain hc | ⟨c, cs, hc⟩ := commands_cases s
  · exact cycle_keeps_cfg ((step_of_nil hc).symm.trans h)
  · exact serve_keeps_cfg (s := { s with commands := cs }) (serve_of_step h hc)

/-- R201: below 0x200 the invariant leaves the bytes of `init`. -/
theorem memAt_reserved {s : State} {a : Nat} (h : s.Inv) (ha : a < 0x200) :
    memAt a s = initByte s.cfg a := by
  refine Memory.read_unlisted fun c hc => ?_
  have hlisted : 0x200 ≤ c.1 := h.reservedKept c hc
  omega

/-- Settles O52: the invariant and the parameters are kept along the run, and together they fix the
reserved bytes. -/
theorem reservedRegionIsConstant : Obligations.ReservedRegionIsConstant := by
  intro m s t hs h a ha
  have hend : t.Inv ∧ t.cfg = s.cfg :=
    run_keeps (P := fun u => u.Inv ∧ u.cfg = s.cfg)
      (fun u w hu hw => ⟨everyStepKeepsInv u w hu.1 hw, (step_keeps_cfg hw).trans hu.2⟩) ⟨hs, rfl⟩ h
  rw [memAt_reserved hend.1 ha, memAt_reserved hs ha, hend.2]

end Sys2Proof.Machine

/-! ## Initialisation, ROM load and the stopped run (spec/70_reset_and_hazards.md R210 to R220) -/

namespace Sys2Proof.Machine

/-! ### A run that has stopped -/

theorem addrWord_setWidth {w : Word} (h : w.toNat < 0x1000) : addrWord (w.setWidth 12) = w := by
  apply BitVec.eq_of_toNat_eq
  rw [addrWord_toNat, BitVec.toNat_setWidth]
  exact Nat.mod_eq_of_lt h

/-- The word `0x1000 | nnn` is `JP nnn`. -/
theorem decode_or_addrWord (nnn : Addr) : decode (0x1000#16 ||| addrWord nnn) = .instr (.jp nnn) :=
  decode_of_encode_eq rfl rfl

/-- R220's self-jump: the word at `PC` jumps to `PC`. -/
theorem runCycle_of_selfJump {s : State} (hr : s.rs = .running) (hp : s.pc.toNat ≤ 0xFFE)
    (hf : fetch s = some (0x1000#16 ||| s.pc)) : runCycle s = .next s := by
  have hpc : addrWord (s.pc.setWidth 12) = s.pc := addrWord_setWidth (by omega)
  have hd : decode (0x1000#16 ||| s.pc) = .instr (.jp (s.pc.setWidth 12)) := by
    rw [← decode_or_addrWord, hpc]
  rw [runCycle_of_instr hr hf hd, exec, execJp, hpc, jumpTo]

theorem runCycle_of_stopped {s : State} (h : s.stopped) : runCycle s = .next s := by
  obtain ⟨kind, hr⟩ | ⟨hr, hp, hf⟩ := h
  · exact runCycle_of_terminal hr
  · exact runCycle_of_selfJump hr hp hf

theorem State.stopped.congr {s t : State} (h : s.stopped) (hr : t.rs = s.rs) (hp : t.pc = s.pc)
    (hc : t.cfg = s.cfg) (hm : t.mem = s.mem) : t.stopped := by
  simpa only [State.stopped, fetch_congr hp hc hm, hr, hp] using h

/-- Settles O15: the work of a `cycle` leaves a stopped state as it is, whether by R181's rule for
terminal states or by the self-jump. -/
theorem stoppedStaysStopped : Obligations.StoppedStaysStopped := by
  intro s rand cs hc hstop
  have hwork : runCycle (Claims.inCycle s rand cs) = .next (Claims.inCycle s rand cs) :=
    runCycle_of_stopped (hstop.congr rfl rfl rfl rfl)
  exact ⟨_, step_of_runCycle hc hwork rfl, hstop.congr rfl rfl rfl rfl, rfl⟩

/-! ### Memory after `init` -/

/-- The font table stands at `FONT_BASE`, five bytes a glyph (20_memory.md R50). -/
theorem initByte_glyph (cfg : Config) (d : Fin 16) (r : Fin 5) :
    initByte cfg (cfg.fontBase.val + 5 * d.val + r.val) = cfg.fontGlyphs[d.val][r.val] := by
  have hoff : cfg.fontBase.val + 5 * d.val + r.val - cfg.fontBase.val = 5 * d.val + r.val := by omega
  have hdiv : (5 * d.val + r.val) / 5 = d.val := by omega
  have hmod : (5 * d.val + r.val) % 5 = r.val := by omega
  rw [initByte, dif_pos (by omega)]
  simp only [hoff, hdiv, hmod]

theorem initByte_outside {cfg : Config} {a : Nat}
    (h : a < cfg.fontBase.val ∨ cfg.fontBase.val + 80 ≤ a) : initByte cfg a = 0 :=
  dif_neg (by omega)

theorem memAt_of_mem_nil {s : State} (a : Nat) (h : s.mem = []) : memAt a s = initByte s.cfg a := by
  rw [memAt, h, Memory.read]

/-! ### `init` -/

theorem readV_reinitialise (j : RegIdx) (s : State) : readV j (reinitialise s) = 0 :=
  Vector.getElem_replicate _

/-- Settles O38: the step leaves `reinitialise`, whose memory lists nothing, so that every address reads
as `initByte`. -/
theorem initResetsEverything : Obligations.InitResetsEverything := by
  intro s cs hc
  refine ⟨reinitialise { s with commands := cs }, step_of_cons hc, rfl, rfl, rfl, rfl,
    fun j => readV_reinitialise j _, rfl, rfl, fun _ => Vector.getElem_replicate _, rfl,
    fun d r => ?_, fun a ha => ?_, pixAt_blankScreen, rfl, rfl,
    fun _ => Vector.getElem_replicate _, rfl, rfl⟩
  · exact (memAt_of_mem_nil _ rfl).trans (initByte_glyph s.cfg d r)
  · exact (memAt_of_mem_nil a rfl).trans (initByte_outside ha)

/-! ### `load_rom` -/

theorem loadRom_of_long {bytes : List Byte} (s : State) (h : bytes.length > romMax) :
    loadRom bytes s = { s with response := some .romTooLarge } := if_pos h

theorem loadRom_of_fits {bytes : List Byte} (s : State) (h : bytes.length ≤ romMax) :
    loadRom bytes s = { storeBytes romBase bytes s with response := some .ok } :=
  if_neg (Nat.not_lt.2 h)

/-- Settles O39, by whether the ROM fits; one that fits ends at 0xFFF at the latest, so that its bytes
are stored by one block of writes inside memory. -/
theorem loadRomCopiesOrRefuses : Obligations.LoadRomCopiesOrRefuses := by
  intro s cs bytes hc
  refine ⟨fun hlong => ?_, fun hfits hwf => ?_⟩
  · exact (step_of_cons hc).trans (congrArg Host.Outcome.next (loadRom_of_long _ hlong))
  · have hend : 0x200 + bytes.length ≤ 0x1000 := by omega
    refine ⟨_, (step_of_cons hc).trans (congrArg Host.Outcome.next (loadRom_of_fits _ hfits)), rfl,
      fun j hj => ?_, fun a ha => ?_⟩
    · exact memAt_storeBytes_inside (s := s) hj hend hwf
    · exact memAt_storeBytes_outside (s := s) ha hend hwf

/-! ### Running without a ROM -/

/-- The font ends below 0x200, so that nothing but zero stands at the entry point. -/
theorem fetch_initial (cfg : Config) : fetch (State.initial cfg) = some 0 := by
  have hfont := cfg.fontBase.isLt
  have hzero : ∀ a, 0x200 ≤ a → memAt a (State.initial cfg) = 0 := fun a ha =>
    (memAt_of_mem_nil a rfl).trans (initByte_outside (cfg := cfg) (.inr (by omega)))
  have hp : (State.initial cfg).pc.toNat ≤ 0xFFE := show (0x200#16).toNat ≤ 0xFFE by decide
  exact (fetch_of_le hp).trans
    (congrArg some (congrArg₂ wordOfBytes (hzero 0x200 (by decide)) (hzero 0x201 (by decide))))

/-- Settles O41: the word fetched is that of `SYS 0`, and `sysFollowsPolicy` says what it does. -/
theorem runningWithoutRom : Obligations.RunningWithoutRom := by
  intro cfg s rand cs hs hc
  have hrun : s.rs = .running := congrArg State.rs hs
  have hcfg : s.cfg = cfg := congrArg State.cfg hs
  have hpc : s.pc = 0x200 := congrArg State.pc hs
  have hmem : s.mem = [] := congrArg State.mem hs
  have hfetch : fetch s = some 0 := (fetch_congr hpc hcfg hmem).trans (fetch_initial cfg)
  obtain ⟨t, ht⟩ := exec_answers (.sys 0) (Claims.inCycle s rand cs)
  have hwork : runCycle (Claims.inCycle s rand cs) = .next t :=
    (runCycle_of_instr (s := Claims.inCycle s rand cs) hrun hfetch (by decide)).trans ht
  obtain ⟨hinvalid, hnop⟩ := sysFollowsPolicy.2 0 (Claims.inCycle s rand cs)
  refine ⟨hfetch, _, step_of_runCycle hc hwork rfl, fun hpol => ?_, fun hpol => ?_⟩
  · cases ht.symm.trans (hinvalid (hcfg ▸ hpol))
    exact ⟨rfl, hpc⟩
  · cases ht.symm.trans (hnop (hcfg ▸ hpol))
    exact ⟨hrun, congrArg (· + 2) hpc⟩

end Sys2Proof.Machine
